-- ==== Sys2Proof/Word.lean ====
section
/-! DEFINITION. The widths the spec names: the operation word and the result (`30_encoding.md` R80,
`10_state.md` R44) and the byte of storage (`20_memory.md` R60). Every value is unsigned (`00_scope.md` §6). -/

namespace Sys2Proof

/-- A 32-bit operation word, register value or result (R80, R34, R44). -/
abbrev Word := BitVec 32

/-- One byte of payload (R60). -/
abbrev Byte := BitVec 8

/-- The 24-bit `baud` operand and register (R86, R200). -/
abbrev Baud := BitVec 24

/-- The 4-bit `data_bits` operand and register (R86, R200). -/
abbrev DataBits := BitVec 4

end Sys2Proof
end

