-- ==== Sys2Proof/Config.lean ====
section
/-! DEFINITION. The implementation parameters of `00_scope.md` R3, the agents' steps of R6 with the values their
environment draws, and the free values: constants without a body, which nothing can evaluate. -/

namespace Sys2Proof

/-- `RX_OVERRUN` (`42_capture_handler.md` R186): what the receiver does with a byte that arrives when its queue is
full. A block built with `unfixed` admits both behaviours, one free draw at each overrun. -/
inductive RxOverrun where
  | dropNew
  | dropOldest
  | unfixed
deriving DecidableEq, Repr

/-- The parameters a block is built for (R3). They are fixed for the life of the block (R5). `baud_readback`, a
function, is the opaque constant `Config.baudReadback`. Which values are legal says `Params.legal`. -/
structure Params where
  /-- `K`, log2 of the ring capacity. -/
  k : Nat
  /-- `MAX_CHUNK`, the most bytes offered in one drain transaction. -/
  maxChunk : Nat
  /-- `RX_DEPTH`, the depth of the receiver's own queue. -/
  rxDepth : Nat
  /-- `RX_OVERRUN`. -/
  rxOverrun : RxOverrun
  /-- `PLATFORM_IRQ`: whether the interrupt wiring starts episodes on its own. -/
  platformIrq : Bool
deriving DecidableEq, Repr

/-- `C = 2^K`, the ring capacity (R3). -/
def Params.capacity (p : Params) : Nat := 2 ^ p.k

/-- One step of one agent (`00_scope.md` R6), with the values the environment draws for it: the transport's answer
`k` (`41_drain_engine.md` R140) and the byte that arrives (`42_capture_handler.md` R185). -/
inductive AgentStep where
  /-- The control port issues the word at `op_pos` (R220). -/
  | issue
  /-- The capture state machine takes one intake step (R175). -/
  | intake
  /-- The capture state machine takes the flush step (R178). -/
  | flush
  /-- The drain engine takes a grant (R133). -/
  | grant
  /-- The write-index synchroniser copies `w` (R66). -/
  | writeSync
  /-- The read-index synchroniser copies `r` (R67). -/
  | readSync
  /-- The transport answers the outstanding offer with `k` (R140). -/
  | answer (k : Word)
  /-- A byte arrives at the receiver (R185). -/
  | rxArrive (b : Byte)
  /-- The receiver asserts the idle condition (R185). -/
  | rxIdle
  /-- The interrupt wiring starts an episode (R250). -/
  | irqStart
  /-- The block is reset (R280). -/
  | reset
deriving DecidableEq, Repr, Inhabited

/-- `baud_readback` (R206, D16): the value GETBAUD returns for the last written baud. OPEN in the spec, so a constant
with no body (log entry 10). -/
opaque Config.baudReadback : Baud → Word

/-- The agent step the `n`-th free draw takes: which agent moves next is open (R6, R253), and so are the values the
environment draws (log entry 4). -/
opaque Config.drawStep : Nat → AgentStep

/-- Whether the overrun at the `n`-th free draw keeps the old bytes and drops the new one, in a block whose
`RX_OVERRUN` is not fixed (R186, log entry 11). -/
opaque Config.drawKeepsOld : Nat → Bool

end Sys2Proof
end

