-- ==== Sys2Proof/Syntax.lean ====
section
/-! DEFINITION. The operations: one constructor of `Instr` per row of spec/opcode_table.json (`30_encoding.md` R89),
with the operands of its format (R81 to R87); and the assembler's source lines (R95, R96). -/

namespace Sys2Proof

/-- A control-port operation (R89). -/
inductive Instr where
  /-- `available()` (R102). -/
  | avail
  /-- `is_full()` (R105). -/
  | isfull
  /-- `push(byte)` (R110). -/
  | push (data : Byte)
  /-- `advance_read(n)` (R115). -/
  | advrd (n : BitVec 16)
  /-- `drain()` from the periodic tick (R130). -/
  | drainTick
  /-- `drain()` from transport completion (R130). -/
  | drainDone
  /-- `capture_handler_on_interrupt()` (R170). -/
  | capture
  /-- `set_line_parameters(baud, data_bits)` (R200). -/
  | setline (dbits : DataBits) (baud : Baud)
  /-- `get_baud()` (R205). -/
  | getbaud
  /-- Wait for quiescence (R226). -/
  | fence
  /-- Read one register (R225); only the numbers 0 to 6 name one (R88, `Instr.wf`). -/
  | rdreg (regno : BitVec 4)
deriving DecidableEq, Repr

/-- The seven readable registers (`10_state.md` R34). -/
inductive RegName where
  | status
  | widx
  | ridx
  | faultCause
  | config
  | wsync
  | rsync
deriving DecidableEq, Repr

/-- RDREG's operand in assembly: a register name or a number (R95). -/
inductive RegOperand where
  | name (r : RegName)
  | number (n : Nat)
deriving DecidableEq, Repr

/-- One line of assembly after lexing (R95), a pseudo-operation among them (R96). Operands are the numbers as
written: the assembler checks their ranges. -/
inductive AsmLine where
  | avail
  | isfull
  | push (byte : Nat)
  | advrd (n : Nat)
  | drainTick
  | drainDone
  | capture
  | setline (baud dataBits : Nat)
  | getbaud
  | fence
  | rdreg (reg : RegOperand)
  /-- Pseudo-operation `DRAIN`. -/
  | drain
  /-- Pseudo-operation `PUSHS b0, b1, ..., bk`. -/
  | pushs (first : Nat) (rest : List Nat)
  /-- Pseudo-operation `SYNC`. -/
  | sync
deriving DecidableEq, Repr

end Sys2Proof
end

