-- ==== Sys2Proof/WellFormed.lean ====
section
/-! DEFINITION. The checks on terms: which operations have an encoding (`30_encoding.md` R88) and which configurations
are legal (`00_scope.md` R3). -/

namespace Sys2Proof

/-- An operation the decoder can answer: RDREG names one of the registers 0 to 6 (R88); every other operand admits
every value (R83, R84, R86). -/
def Instr.wf : Instr → Bool
  | .avail => true
  | .isfull => true
  | .push _ => true
  | .advrd _ => true
  | .drainTick => true
  | .drainDone => true
  | .capture => true
  | .setline _ _ => true
  | .getbaud => true
  | .fence => true
  | .rdreg regno => decide (regno.toNat ≤ 6)

/-- The legal values of R3's table. A configuration outside them is refused. -/
def Params.legal (p : Params) : Bool :=
  decide (1 ≤ p.k) && decide (p.k ≤ 16) && decide (1 ≤ p.maxChunk) && decide (p.maxChunk ≤ 2 ^ 24 - 1)
    && decide (1 ≤ p.rxDepth)

end Sys2Proof
end

