-- ==== Sys2Proof/Decode.lean ====
section
/-! DEFINITION. The operation word (`30_encoding.md` R80 to R97): the decoder of R92, total and rejecting by name, the
encoder written from the same formats (R81), and the byte order of a word carried as bytes (R94). -/

namespace Sys2Proof

/-- Why a word, or a sequence of bytes, is no operation. The first three make an ILLEGAL word (R90). -/
inductive DecodeError where
  /-- An unassigned major opcode, 0x0 or 0xB to 0xF (R90). -/
  | reservedOpcode
  /-- A reserved field that is not zero (R81, R90). -/
  | reservedField
  /-- RDREG with a register number from 7 to 15 (R88). -/
  | reservedRegister
  /-- Fewer than the four bytes of a word (R93). -/
  | truncated
deriving DecidableEq, Repr

/-- An operation whose format reserves every bit from `lo` to 27 (R81): it decodes when those bits are zero. -/
def reservedZero (word : Word) (lo : Nat) (i : Instr) : Except DecodeError Instr :=
  if word.extractLsb' lo (28 - lo) = 0 then .ok i else .error .reservedField

/-- Format Z: no operand, bits 27:0 reserved (R82). -/
def decodeZ (word : Word) (i : Instr) : Except DecodeError Instr := reservedZero word 0 i

/-- Format B: DATA in bits 7:0 (R83). -/
def decodeB (word : Word) : Except DecodeError Instr :=
  reservedZero word 8 (.push (word.extractLsb' 0 8))

/-- Format N: N in bits 15:0 (R84). -/
def decodeN (word : Word) : Except DecodeError Instr :=
  reservedZero word 16 (.advrd (word.extractLsb' 0 16))

/-- Format S: the trigger site in bit 0 (R85). -/
def decodeS (word : Word) : Except DecodeError Instr :=
  reservedZero word 1 (if word.extractLsb' 0 1 = 0 then .drainTick else .drainDone)

/-- Format L: DBITS in bits 27:24, BAUD in bits 23:0, nothing reserved (R86). -/
def decodeL (word : Word) : Except DecodeError Instr :=
  .ok (.setline (word.extractLsb' 24 4) (word.extractLsb' 0 24))

/-- Format G: REGNO in bits 3:0 (R87); the numbers 7 to 15 are reserved (R88). -/
def decodeG (word : Word) : Except DecodeError Instr :=
  if word.extractLsb' 4 24 = 0 then
    if (word.extractLsb' 0 4).toNat ≤ 6 then .ok (.rdreg (word.extractLsb' 0 4)) else .error .reservedRegister
  else .error .reservedField

/-- `decode` of R92: a total function from 32-bit words to an operation, or to the reason the word is ILLEGAL. -/
def decode (word : Word) : Except DecodeError Instr :=
  match (word.extractLsb' 28 4).toNat with
  | 0x1 => decodeZ word .avail
  | 0x2 => decodeZ word .isfull
  | 0x3 => decodeB word
  | 0x4 => decodeN word
  | 0x5 => decodeS word
  | 0x6 => decodeZ word .capture
  | 0x7 => decodeL word
  | 0x8 => decodeZ word .getbaud
  | 0x9 => decodeZ word .fence
  | 0xA => decodeG word
  | _ => .error .reservedOpcode

/-- The operation word of an operation (R81, R89): the row's `match` value with the operands in their fields. -/
def encode : Instr → Word
  | .avail => 0x10000000
  | .isfull => 0x20000000
  | .push data => 0x30000000 ||| data.setWidth 32
  | .advrd n => 0x40000000 ||| n.setWidth 32
  | .drainTick => 0x50000000
  | .drainDone => 0x50000001
  | .capture => 0x60000000
  | .setline dbits baud => 0x70000000 ||| dbits.setWidth 32 <<< 24 ||| baud.setWidth 32
  | .getbaud => 0x80000000
  | .fence => 0x90000000
  | .rdreg regno => 0xA0000000 ||| regno.setWidth 32

/-- A word, or a result, as the host sends it: bits 7:0 first (R94). -/
def bytesOfWord (word : Word) : List Byte :=
  [word.extractLsb' 0 8, word.extractLsb' 8 8, word.extractLsb' 16 8, word.extractLsb' 24 8]

/-- The word of four bytes in the order of R94. -/
def wordOfBytes (b0 b1 b2 b3 : Byte) : Word :=
  b0.setWidth 32 ||| b1.setWidth 32 <<< 8 ||| b2.setWidth 32 <<< 16 ||| b3.setWidth 32 <<< 24

/-- Decoding a host's bytes: one word of four bytes (R93, R94), and the bytes after it. -/
def decodeBytes : List Byte → Except DecodeError (Instr × List Byte)
  | b0 :: b1 :: b2 :: b3 :: rest =>
    match decode (wordOfBytes b0 b1 b2 b3) with
    | .ok i => .ok (i, rest)
    | .error e => .error e
  | [] => .error .truncated
  | [_] => .error .truncated
  | [_, _] => .error .truncated
  | [_, _, _] => .error .truncated

/-- The operation the decoder reads from an instruction whose bits are `w`, `nbits` of them given and the others
zero, laid out as bytes (R94). -/
def decodeTableWord (nbits w : Nat) : Option Instr :=
  match decodeBytes (bytesOfWord (BitVec.ofNat 32 (w % 2 ^ nbits))) with
  | .ok (i, _) => some i
  | .error _ => none

end Sys2Proof
end

