-- ==== Sys2Proof/Machine/State.lean ====
section
/-! DEFINITION. The machine's state as plain data: every element of `10_state.md` R20, the control port's (R40, R44),
the environment's (R45, R46), the parameters (`00_scope.md` R3), and the model's own schedule (log entry 4); the
reasons a step can stop; and the state right after reset (`70_reset_and_hazards.md` R280). -/

namespace Sys2Proof.Machine

/-- The ring storage: the cells that hold a value, by rising index. A cell that is not listed holds *no value*
(`10_state.md` R25, `20_memory.md` R60). -/
abbrev Memory := List Host.Cell

/-- `cap_state` (R26). -/
inductive CapState where
  | idle
  | loop
  | flush
deriving DecidableEq, Repr

/-- `drn_state` (R29). -/
inductive DrnState where
  | idle
  | offer
deriving DecidableEq, Repr

/-- One offer as `offers` records it (R46, `41_drain_engine.md` R137). -/
structure Offer where
  offset : Nat
  length : Nat
  bytes : List Byte
deriving DecidableEq, Repr

/-- The causes of the block's own fault record (`60_exceptions.md` R242). -/
inductive FaultCause where
  | illegalOp
  | pushFull
  | advanceOverrun
  | transportOveraccept
  | lineUnset
deriving DecidableEq, Repr

/-- The whole state. The index registers, K bits wide in the spec, are naturals below `C` (log entry 1). -/
structure State where
  /-- The parameters the block was built for; no step changes them (R5, log entry 2). -/
  cfg : Params
  /-- `w`, write_index. -/
  w : Nat
  /-- `r`, read_index. -/
  r : Nat
  /-- `Storage`. -/
  storage : Memory
  /-- `w_sync`, the consumer side's copy of `w`. -/
  wSync : Nat
  /-- `r_sync`, the producer side's copy of `r`. -/
  rSync : Nat
  capState : CapState
  flushNeeded : Bool
  reqCap : Bool
  reqDone : Bool
  reqTick : Bool
  drnState : DrnState
  offerOff : Nat
  offerLen : Nat
  lineSet : Bool
  lineBaud : Baud
  lineDataBits : DataBits
  /-- The sticky fault bit (`60_exceptions.md` R241, R244). -/
  fault : Bool
  /-- The code of the first fault since reset (R241, R242). -/
  faultCause : BitVec 4
  /-- The run's program (R40, log entry 3). -/
  ops : List Word
  /-- The control port's position in `ops` (R40). -/
  opPos : Nat
  /-- The result trace (R44). -/
  results : List Word
  /-- The receiver's queue, oldest first (R45). -/
  rxQueue : List Byte
  /-- The receiver's idle condition (R45). -/
  rxIdle : Bool
  /-- The last `(baud, data_bits)` forwarded to the receiver (R45). -/
  rxConfig : Option (Baud × DataBits)
  /-- The offers made, in order (R46). -/
  offers : List Offer
  /-- The bytes the transport accepted, in order (R46). -/
  delivered : List Byte
  /-- The MODEL's own: the agent steps the run takes next; when it is empty, the next one is a free draw (log entry 4). -/
  sched : List AgentStep
  /-- The MODEL's own: the number of free draws made (log entry 4). -/
  draws : Nat
deriving DecidableEq, Repr

/-- How the model itself stops. The block's own contract violations are no such stop: they set `fault` and the
machine goes on (R244, log entry 14). -/
inductive Fault where
  /-- A read of a cell that holds *no value*: the grant and the transport's answer raise it (R62). No state that keeps
  R73 reaches it (R152). Safe: the model stops where the spec gives no byte. -/
  | readNoValue
  /-- An access to a cell at or above `C`, which does not exist (R60): PUSH, intake, grant and answer raise it, only in
  states whose indices are out of range, which no run reaches. Safe. -/
  | outsideStorage
deriving DecidableEq, Repr

/-- What the model has no meaning for. -/
inductive Refusal where
  /-- A configuration outside `00_scope.md` R3: `step` raises it (R3, R8). Safe: there is no such block. -/
  | illegalConfig
  /-- An operation whose meaning is not written yet, by its mnemonic: `exec` raises it. Safe. -/
  | notModelled (mnemonic : String)
deriving DecidableEq, Repr

/-- A block right after reset, at the start of a run (R280, R282, `44_control_port.md` R222): the launch parameters are
the configuration, the program, the receiver's queue and idle condition, and the schedule. `offerOff`, `offerLen`,
`lineBaud` and `lineDataBits`, unspecified in the spec, are zero (log entries 7 and 8). -/
def State.launch (cfg : Params) (ops : List Word) (rxQueue : List Byte) (rxIdle : Bool) (sched : List AgentStep) :
    State where
  cfg := cfg
  w := 0
  r := 0
  storage := []
  wSync := 0
  rSync := 0
  capState := .idle
  flushNeeded := false
  reqCap := false
  reqDone := false
  reqTick := false
  drnState := .idle
  offerOff := 0
  offerLen := 0
  lineSet := false
  lineBaud := 0
  lineDataBits := 0
  fault := false
  faultCause := 0
  ops := ops
  opPos := 0
  results := []
  rxQueue := rxQueue
  rxIdle := rxIdle
  rxConfig := none
  offers := []
  delivered := []
  sched := sched
  draws := 0

/-- The configuration of `State.reset`: the capacity 8 and the chunk of 64 of the source's examples, a receiver queue
that holds the example's eight bytes, program mode. DESIGN CHOICE (log entry 2). -/
def exampleParams : Params := ⟨3, 64, 8, .unfixed, false⟩

/-- The machine right after reset, with no program, an empty receiver and nothing scheduled (log entries 2, 3, 9). -/
def State.reset : State := State.launch exampleParams [] [] false []

end Sys2Proof.Machine
end

