-- ==== Sys2Proof/Machine/Ops.lean ====
section
/-! DEFINITION. The named operations over storage, indices, records and the fault record that every meaning is written
with: `20_memory.md` R60 to R68, `10_state.md` R21 to R25 R44, `44_control_port.md` R221, `60_exceptions.md` R241, and
the receiver's interface (`42_capture_handler.md` R187). -/

namespace Sys2Proof.Machine

/-! ## Storage -/

/-- The byte in cell `a`, or none when the cell holds *no value* (R25). -/
def Memory.read : Memory → Nat → Option Byte
  | [], _ => none
  | (x, v) :: rest, a => if x = a then some v else Memory.read rest a

/-- Put a byte in cell `a`, keeping the cells in rising order. -/
def Memory.write : Memory → Nat → Byte → Memory
  | [], a, v => [(a, v)]
  | (x, u) :: rest, a, v =>
    if a < x then (a, v) :: (x, u) :: rest
    else if x = a then (a, v) :: rest
    else (x, u) :: Memory.write rest a v

/-- The canonical form: indices strictly rising. -/
def Memory.wf : Memory → Bool
  | [] => true
  | (x, _) :: rest => rest.all (fun c => decide (x < c.1)) && Memory.wf rest

/-- `C`, the ring capacity (`00_scope.md` R3). -/
abbrev State.cap (s : State) : Nat := s.cfg.capacity

/-- `MemRead(i, 1)`: a cell that holds no value is a model fault (R62), and so is an index that names no cell (R60). -/
def State.memRead (s : State) (i : Nat) : Except Fault Byte :=
  if i < s.cap then
    match s.storage.read i with
    | some v => .ok v
    | none => .error .readNoValue
  else .error .outsideStorage

/-- `MemWrite(i, 1, v)` (R60). -/
def State.memWrite (s : State) (i : Nat) (v : Byte) : Except Fault State :=
  if i < s.cap then .ok { s with storage := s.storage.write i v } else .error .outsideStorage

/-- The bytes of the cells `off`, `off + 1`, ..., `off + len - 1`, in ascending index order (R61). -/
def State.readRun (s : State) (off : Nat) : Nat → Except Fault (List Byte)
  | 0 => .ok []
  | len + 1 =>
    match s.memRead off with
    | .error f => .error f
    | .ok v =>
      match State.readRun s (off + 1) len with
      | .error f => .error f
      | .ok vs => .ok (v :: vs)

/-! ## Indices -/

/-- `dist(a, b) = (b - a) mod C` (`00_scope.md` §6). -/
def ringDist (c a b : Nat) : Nat := (b + (c - a % c)) % c

/-- `push`: the byte is written at `w` and `w` advances modulo `C`, in one step (R70, `40_ring_buffer.md` R110,
`42_capture_handler.md` R175). The caller has checked that the ring is not full. -/
def State.pushByte (s : State) (v : Byte) : Except Fault State :=
  match s.memWrite s.w v with
  | .error f => .error f
  | .ok s' => .ok { s' with w := (s.w + 1) % s.cap }

/-- `advance_read`: `r` advances by `n` modulo `C` (`40_ring_buffer.md` R115, R117). -/
def State.advanceRead (s : State) (n : Nat) : State := { s with r := (s.r + n) % s.cap }

/-! ## The control port's records -/

/-- `emit Result(v)` (`10_state.md` R44). -/
def State.emit (s : State) (v : Word) : State := { s with results := s.results ++ [v] }

/-- The word at `op_pos` is issued: `op_pos` advances by exactly 1 (`44_control_port.md` R221). -/
def State.issued (s : State) : State := { s with opPos := s.opPos + 1 }

/-- The end of a step that touched storage: the state reached, or the model fault. -/
def finish : Except Fault State → Host.Outcome State Fault Refusal
  | .ok s => .next s
  | .error f => .fault f

/-! ## The fault record -/

/-- The code of a cause (`60_exceptions.md` R242). -/
def FaultCause.code : FaultCause → BitVec 4
  | .illegalOp => 1
  | .pushFull => 2
  | .advanceOverrun => 3
  | .transportOveraccept => 4
  | .lineUnset => 5

/-- `raise Fault(cause)`, the block's one way of taking an exception (R241): `fault` is set and the first fault's code
is kept. There is no trap entry, no saved position and no return (R248, R249); only reset clears the record (R244). -/
def State.raiseFault (s : State) (cause : FaultCause) : State :=
  { s with fault := true, faultCause := if s.faultCause = 0 then cause.code else s.faultCause }

/-! ## The receiver's interface -/

/-- `receive_queue_empty()` (R187). -/
def State.receiveQueueEmpty (s : State) : Bool := s.rxQueue.isEmpty

/-- `idle_timeout_asserted()` (R187). -/
def State.idleTimeoutAsserted (s : State) : Bool := s.rxIdle

/-- `clear_idle_flag()` (R187). -/
def State.clearIdleFlag (s : State) : State := { s with rxIdle := false }

/-- `set_line_parameters` forwarded to the receiver (`43_link_config.md` R200, R202). -/
def State.forwardLine (s : State) (baud : Baud) (dbits : DataBits) : State := { s with rxConfig := some (baud, dbits) }

/-! ## The schedule -/

/-- The agent step the run takes next: the head of the schedule, or a free draw (log entry 4). -/
def State.nextStep (s : State) : AgentStep :=
  match s.sched with
  | e :: _ => e
  | [] => Config.drawStep s.draws

/-- The state once that choice is made. -/
def State.popStep (s : State) : State :=
  match s.sched with
  | _ :: rest => { s with sched := rest }
  | [] => { s with draws := s.draws + 1 }

end Sys2Proof.Machine
end

