-- ==== Sys2Proof/Machine/Flags.lean ====
section
/-! DEFINITION. The conditions the rules compute from the state: the two views of the ring (`20_memory.md` R68,
`40_ring_buffer.md` R101 R106), the STATUS bits (`10_state.md` R35), the interrupt condition (`60_exceptions.md` R250),
quiescence and the hold test (`44_control_port.md` R220, R227), and which agent has a step. -/

namespace Sys2Proof.Machine

/-- `pending_c()`, the unread bytes the consumer sees (R101). -/
def State.pendingC (s : State) : Nat := ringDist s.cap s.r s.wSync

/-- `avail_fn(wv, rv)`, the source's formula (R101). -/
def availFn (c wv rv : Nat) : Nat := if rv ≤ wv then wv - rv else c - rv

/-- `full_p()`, in the producer view `(w, r_sync)` (R106, R24). -/
def State.fullP (s : State) : Bool := (s.w + 1) % s.cap == s.rSync

/-- The ring is empty in the consumer view `(w_sync, r)` (R23). -/
def State.emptyC (s : State) : Bool := s.wSync == s.r

/-- STATUS.CAP_BUSY: an episode runs (R26, R35). -/
def State.capBusy (s : State) : Bool := s.capState != .idle

/-- STATUS.DRN_BUSY: an offer is outstanding (R29, R35). -/
def State.drnBusy (s : State) : Bool := s.drnState == .offer

/-- The receiver's interrupt condition (R250). -/
def State.irq (s : State) : Bool := !s.rxQueue.isEmpty || s.rxIdle

/-- `quiescent()` (R227). -/
def State.quiescent (s : State) : Bool :=
  !s.capBusy && !s.drnBusy && !s.reqCap && !s.reqDone && !s.reqTick && s.wSync == s.w && s.rSync == s.r

/-- `held(op)`: the operations that wait, and for what (R220). -/
def State.held (s : State) : Instr → Bool
  | .push _ => s.capBusy
  | .advrd _ => s.drnBusy
  | .capture => s.capBusy
  | .fence => !s.quiescent
  | .avail => false
  | .isfull => false
  | .drainTick => false
  | .drainDone => false
  | .setline _ _ => false
  | .getbaud => false
  | .rdreg _ => false

/-- The grant is enabled: no offer outstanding and at least one request (R132). -/
def State.grantEnabled (s : State) : Bool := !s.drnBusy && (s.reqCap || s.reqDone || s.reqTick)

/-- The interrupt wiring's step is enabled: platform mode, the condition holds and no episode runs (R250). -/
def State.wiringEnabled (s : State) : Bool := s.cfg.platformIrq && s.irq && !s.capBusy

end Sys2Proof.Machine
end

