-- ==== Sys2Proof/Machine/Operands.lean ====
section
/-! DEFINITION. Operand values: REGNO and the value of each readable register (`10_state.md` R34 to R43), and the
unsigned, unscaled count of format N (`30_encoding.md` R84, R97). -/

namespace Sys2Proof.Machine

/-- The register a number names; 7 to 15 name none (`10_state.md` R34, `30_encoding.md` R88). -/
def regOfNumber (regno : BitVec 4) : Option RegName :=
  match regno.toNat with
  | 0 => some .status
  | 1 => some .widx
  | 2 => some .ridx
  | 3 => some .faultCause
  | 4 => some .config
  | 5 => some .wsync
  | 6 => some .rsync
  | _ => none

/-- An index register as read: bits `[K-1:0]` hold the index, the others read 0 (R36, R37, R41, R42). -/
def State.indexValue (s : State) (index : Nat) : Word := BitVec.ofNat 32 (index % s.cap)

/-- A word with one flag at bit `i`. -/
def flagAt (i : Nat) (flag : Bool) : Word := (BitVec.ofBool flag).setWidth 32 <<< i

/-- STATUS (R35); bits 31:10 read 0. -/
def State.statusValue (s : State) : Word :=
  flagAt 0 s.emptyC ||| flagAt 1 s.fullP ||| flagAt 2 s.capBusy ||| flagAt 3 s.drnBusy ||| flagAt 4 s.reqCap
    ||| flagAt 5 s.reqDone ||| flagAt 6 s.reqTick ||| flagAt 7 s.flushNeeded ||| flagAt 8 s.lineSet ||| flagAt 9 s.fault

/-- CONFIG: `K` in bits 4:0, `MAX_CHUNK` in bits 31:8 (R39). -/
def State.configValue (s : State) : Word :=
  (BitVec.ofNat 5 s.cfg.k).setWidth 32 ||| (BitVec.ofNat 24 s.cfg.maxChunk).setWidth 32 <<< 8

/-- `reg_value(regno)`: the value of a register at this step (R34 to R42). -/
def State.regValue (s : State) : RegName → Word
  | .status => s.statusValue
  | .widx => s.indexValue s.w
  | .ridx => s.indexValue s.r
  | .faultCause => s.faultCause.setWidth 32
  | .config => s.configValue
  | .wsync => s.indexValue s.wSync
  | .rsync => s.indexValue s.rSync

/-- The advance count of format N: `zext_32(word[15:0])`, unsigned and unscaled (R84). -/
abbrev countOf (n : BitVec 16) : Nat := n.toNat

end Sys2Proof.Machine
end

