-- ==== Sys2Proof/Machine/Capture.lean ====
section
/-! DEFINITION. The capture state machine (`42_capture_handler.md`): CAPTURE, the episode's steps, and the interrupt
wiring's start (`60_exceptions.md` R250). -/

namespace Sys2Proof.Machine

/-- Episode start: the idle condition is sampled into `flush_needed` and cleared in the same step (R172; clearing a
condition that is not asserted changes nothing). -/
def State.episodeStart (s : State) : State :=
  { s with flushNeeded := s.idleTimeoutAsserted, capState := .loop }.clearIdleFlag

/-- CAPTURE (R170, R179). -/
def execCapture (s : State) : Host.Outcome State Fault Refusal :=
  if s.held .capture then .next s else .next s.episodeStart.issued

/-- The interrupt wiring starts an episode (R171, R250); `op_pos` does not move. -/
def wiringStep (s : State) : Host.Outcome State Fault Refusal :=
  if s.wiringEnabled then .next s.episodeStart else .next s

/-- One intake step: the loop ends on an empty queue; otherwise one byte is popped, and pushed unless the ring is full
in the producer view, when it is dropped and the loop stops (R175, R176, R177). -/
def intakeStep (s : State) : Host.Outcome State Fault Refusal :=
  if s.capState = .loop then
    match s.rxQueue with
    | [] => .next { s with capState := .flush }
    | b :: rest =>
      let popped := { s with rxQueue := rest }
      if s.fullP then .next { popped with flushNeeded := true, capState := .flush }
      else finish (popped.pushByte b)
  else .next s

/-- The flush step: the capture request and the write index cross together, and the episode ends (R178). -/
def flushStep (s : State) : Host.Outcome State Fault Refusal :=
  if s.capState = .flush then
    let posted := if s.flushNeeded then { s with reqCap := true, wSync := s.w } else s
    .next { posted with flushNeeded := false, capState := .idle }
  else .next s

end Sys2Proof.Machine
end

