-- ==== Sys2Proof/Machine/Control.lean ====
section
/-! DEFINITION. The control port's own operations RDREG and FENCE (`44_control_port.md`), and the effect of an illegal
word (`30_encoding.md` R90). -/

namespace Sys2Proof.Machine

/-- An illegal word is issued: ILLEGAL_OP is recorded and nothing else happens but the advance of `op_pos`
(R90, `60_exceptions.md` R246). -/
def State.illegalWord (s : State) : State := (s.raiseFault .illegalOp).issued

/-- FENCE (R226, R227). -/
def execFence (s : State) : Host.Outcome State Fault Refusal :=
  if s.held .fence then .next s else .next s.issued

/-- RDREG (R225). A number from 7 to 15, which no decoded word holds, acts as the illegal word it is (R88, log
entry 13). -/
def execRdreg (regno : BitVec 4) (s : State) : Host.Outcome State Fault Refusal :=
  match regOfNumber regno with
  | some reg => .next (s.emit (s.regValue reg)).issued
  | none => .next s.illegalWord

end Sys2Proof.Machine
end

