-- ==== Sys2Proof/Machine/Drain.lean ====
section
/-! DEFINITION. The drain arbiter and transfer scheduler (`41_drain_engine.md`): DRAIN.TICK and DRAIN.DONE, the grant
step of the drain engine, and the transport's answer. -/

namespace Sys2Proof.Machine

/-- DRAIN.TICK (R130). -/
def execDrainTick (s : State) : Host.Outcome State Fault Refusal :=
  .next { s with reqTick := true }.issued

/-- DRAIN.DONE (R130). -/
def execDrainDone (s : State) : Host.Outcome State Fault Refusal :=
  .next { s with reqDone := true }.issued

/-- The granted request is consumed: CAP first, then DONE, then TICK (R139). -/
def State.clearGranted (s : State) : State :=
  if s.reqCap then { s with reqCap := false }
  else if s.reqDone then { s with reqDone := false }
  else { s with reqTick := false }

/-- `run`: the contiguous bytes from `r` to `w_sync` or to the physical end of storage (R135). -/
def State.runLength (s : State) : Nat := if s.r < s.wSync then s.wSync - s.r else s.cap - s.r

/-- `len`: the run clamped to the transport's chunk (R136). -/
def State.offerLength (s : State) : Nat := min s.runLength s.cfg.maxChunk

/-- The offer `(off, bytes)` is presented to the transport and recorded (R137). -/
def State.makeOffer (s : State) (off : Nat) (len : Nat) (bytes : List Byte) : State :=
  { s with offerOff := off, offerLen := len, drnState := .offer, offers := s.offers ++ [⟨off, len, bytes⟩] }

/-- The grant step (R133, R134). -/
def grantStep (s : State) : Host.Outcome State Fault Refusal :=
  if s.grantEnabled then
    if s.emptyC then .next s.clearGranted
    else
      match s.readRun s.r s.offerLength with
      | .error f => .fault f
      | .ok bytes => .next (s.clearGranted.makeOffer s.r s.offerLength bytes)
  else .next s

/-- The transport takes `bytes` and the engine is idle again (R141, R142). -/
def State.deliver (s : State) (bytes : List Byte) : State :=
  { s with delivered := s.delivered ++ bytes, drnState := .idle }

/-- The transport's answer `k`: full acceptance commits (R141), a short answer delivers its `k` bytes and leaves `r`
(R142), an answer above the offer breaks the contract (R143). -/
def answerStep (k : Word) (s : State) : Host.Outcome State Fault Refusal :=
  if s.drnBusy then
    if s.offerLen < k.toNat then .next { s.raiseFault .transportOveraccept with drnState := .idle }
    else
      match s.readRun s.offerOff k.toNat with
      | .error f => .fault f
      | .ok bytes =>
        if k.toNat = s.offerLen then .next ((s.deliver bytes).advanceRead s.offerLen)
        else .next (s.deliver bytes)
  else .next s

end Sys2Proof.Machine
end

