-- ==== Sys2Proof/Machine/Link.lean ====
section
/-! DEFINITION. The link configuration interface SETLINE and GETBAUD (`43_link_config.md`). -/

namespace Sys2Proof.Machine

/-- SETLINE (R200, R201, R202). -/
def execSetline (dbits : DataBits) (baud : Baud) (s : State) : Host.Outcome State Fault Refusal :=
  .next ({ s with lineBaud := baud, lineDataBits := dbits, lineSet := true }.forwardLine baud dbits).issued

/-- GETBAUD (R205): the read-back function is open (R206, log entry 10). -/
def execGetbaud (s : State) : Host.Outcome State Fault Refusal :=
  if s.lineSet then .next (s.emit (Config.baudReadback s.lineBaud)).issued
  else .next (s.raiseFault .lineUnset).issued

end Sys2Proof.Machine
end

