-- ==== Sys2Proof/Machine/Ring.lean ====
section
/-! DEFINITION. The ring buffer primitives AVAIL, ISFULL, PUSH and ADVRD (`40_ring_buffer.md`). A held operation has no
step: its meaning answers the same state, `op_pos` included (`44_control_port.md` R221, log entry 5). -/

namespace Sys2Proof.Machine

/-- AVAIL (R102). -/
def execAvail (s : State) : Host.Outcome State Fault Refusal :=
  .next (s.emit (BitVec.ofNat 32 (availFn s.cap s.wSync s.r))).issued

/-- ISFULL (R105). -/
def execIsfull (s : State) : Host.Outcome State Fault Refusal :=
  .next (s.emit (if s.fullP then 1 else 0)).issued

/-- PUSH (R110), a PUSH while full (R111). -/
def execPush (data : Byte) (s : State) : Host.Outcome State Fault Refusal :=
  if s.held (.push data) then .next s
  else if s.fullP then .next (s.raiseFault .pushFull).issued
  else finish ((s.pushByte data).map State.issued)

/-- ADVRD (R115, R116). -/
def execAdvrd (n : BitVec 16) (s : State) : Host.Outcome State Fault Refusal :=
  if s.held (.advrd n) then .next s
  else if s.pendingC < countOf n then .next (s.raiseFault .advanceOverrun).issued
  else .next (s.advanceRead (countOf n)).issued

end Sys2Proof.Machine
end

