-- ==== Sys2Proof/Machine/Dispatch.lean ====
section
/-! DEFINITION. `exec`: one arm per operation, each a call of its meaning. -/

namespace Sys2Proof.Machine

def exec (i : Instr) (s : State) : Host.Outcome State Fault Refusal :=
  match i with
  | .avail => Sys2Proof.Machine.execAvail s
  | .isfull => Sys2Proof.Machine.execIsfull s
  | .push data => Sys2Proof.Machine.execPush data s
  | .advrd n => Sys2Proof.Machine.execAdvrd n s
  | .drainTick => Sys2Proof.Machine.execDrainTick s
  | .drainDone => Sys2Proof.Machine.execDrainDone s
  | .capture => Sys2Proof.Machine.execCapture s
  | .setline dbits baud => Sys2Proof.Machine.execSetline dbits baud s
  | .getbaud => Sys2Proof.Machine.execGetbaud s
  | .fence => Sys2Proof.Machine.execFence s
  | .rdreg regno => Sys2Proof.Machine.execRdreg regno s

end Sys2Proof.Machine
end

