-- ==== Sys2Proof/Machine/Environment.lean ====
section
/-! DEFINITION. The steps of the other agents: the index synchronisers (`20_memory.md` R66, R67), the receiver
(`42_capture_handler.md` R185, R186) and the reset event (`70_reset_and_hazards.md` R280 to R283). -/

namespace Sys2Proof.Machine

/-- The write-index synchroniser copies the whole current value of `w` (R66). Where the copy already agrees it has no
step, and this changes nothing. -/
def writeSyncStep (s : State) : Host.Outcome State Fault Refusal := .next { s with wSync := s.w }

/-- The read-index synchroniser (R67). -/
def readSyncStep (s : State) : Host.Outcome State Fault Refusal := .next { s with rSync := s.r }

/-- The receiver's queue after a byte arrives when it is full, if the old bytes are kept (R186). -/
def overrunQueue (queue : List Byte) (b : Byte) (keepsOld : Bool) : List Byte :=
  if keepsOld then queue else queue.tail ++ [b]

/-- `RX_OVERRUN` (R186): a policy that is not fixed admits both outcomes, one free draw each time (log entry 11). -/
def State.overrun (s : State) (b : Byte) : State :=
  match s.cfg.rxOverrun with
  | .dropNew => { s with rxQueue := overrunQueue s.rxQueue b true }
  | .dropOldest => { s with rxQueue := overrunQueue s.rxQueue b false }
  | .unfixed =>
    { s with rxQueue := overrunQueue s.rxQueue b (Config.drawKeepsOld s.draws), draws := s.draws + 1 }

/-- A byte arrives at the receiver (R185). -/
def rxArriveStep (b : Byte) (s : State) : Host.Outcome State Fault Refusal :=
  if s.rxQueue.length < s.cfg.rxDepth then .next { s with rxQueue := s.rxQueue ++ [b] } else .next (s.overrun b)

/-- The receiver asserts the idle condition (R185). -/
def rxIdleStep (s : State) : Host.Outcome State Fault Refusal := .next { s with rxIdle := true }

/-- Reset, one atomic event (R280, R281, R283): every element of `10_state.md` R20 takes its reset value; the
configuration, the environment and the run's records keep theirs (R282). -/
def resetStep (s : State) : Host.Outcome State Fault Refusal :=
  .next { State.launch s.cfg s.ops s.rxQueue s.rxIdle s.sched with
    opPos := s.opPos, results := s.results, rxConfig := s.rxConfig, offers := s.offers, delivered := s.delivered
    draws := s.draws }

end Sys2Proof.Machine
end

