-- ==== Sys2Proof/Machine/Agents.lean ====
section
/-! DEFINITION. The agents' steps (`00_scope.md` R6): the control port's issue step (`44_control_port.md` R220), when
each step is enabled, and the one function that takes the step of an agent. -/

namespace Sys2Proof.Machine

/-- The word at `op_pos`, if the program has one (R220). -/
def State.fetchWord (s : State) : Option Word := s.ops[s.opPos]?

/-- The issue step (R220): fetch, decode, perform. A word that decodes to ILLEGAL records its fault; a held word and a
program at its end leave the port without a step. -/
def issueStep (s : State) : Host.Outcome State Fault Refusal :=
  match s.fetchWord with
  | none => .next s
  | some word =>
    match decode word with
    | .error _ => .next s.illegalWord
    | .ok i => exec i s

/-- The word at `op_pos` is held: an illegal word never is (R245). -/
def State.wordHeld (s : State) (word : Word) : Bool :=
  match decode word with
  | .ok i => s.held i
  | .error _ => false

/-- The issue step is enabled (R220). -/
def State.issueEnabled (s : State) : Bool :=
  match s.fetchWord with
  | some word => !s.wordHeld word
  | none => false

/-- Whether an agent has its step: `hold` is a state in which it has none (`00_scope.md` §6). -/
def State.enabled (s : State) : AgentStep → Bool
  | .issue => s.issueEnabled
  | .intake => s.capState == .loop
  | .flush => s.capState == .flush
  | .grant => s.grantEnabled
  | .writeSync => s.wSync != s.w
  | .readSync => s.rSync != s.r
  | .answer _ => s.drnBusy
  | .rxArrive _ => true
  | .rxIdle => true
  | .irqStart => s.wiringEnabled
  | .reset => true

/-- Take the step of an agent. Where the agent has no step, nothing happens (log entry 5). -/
def runStep : AgentStep → State → Host.Outcome State Fault Refusal
  | .issue, s => issueStep s
  | .intake, s => intakeStep s
  | .flush, s => flushStep s
  | .grant, s => grantStep s
  | .writeSync, s => writeSyncStep s
  | .readSync, s => readSyncStep s
  | .answer k, s => answerStep k s
  | .rxArrive b, s => rxArriveStep b s
  | .rxIdle, s => rxIdleStep s
  | .irqStart, s => wiringStep s
  | .reset, s => resetStep s

/-- The program with `word` at `op_pos`: the words before it are kept, or filled up with zero words, and the words
after it stay. -/
def placeWord (ops : List Word) (pos : Nat) (word : Word) : List Word :=
  ops.take pos ++ List.replicate (pos - ops.length) 0 ++ word :: ops.drop (pos + 1)

end Sys2Proof.Machine
end

