-- ==== Sys2Proof/Machine/Step.lean ====
section
/-! DEFINITION. One step of the machine: the agent step the schedule names, or a free draw, is taken
(`00_scope.md` R6, log entry 4). -/

namespace Sys2Proof.Machine

/-- One step. A configuration outside R3 is refused (R8). -/
def step (s : State) : Host.Outcome State Fault Refusal :=
  if s.cfg.legal then runStep s.nextStep s.popStep else .refused .illegalConfig

/-- `s` with the word of the low `nbits` bits of `w` at the control port's position, and the control port chosen to
move: the very next step issues it (log entry 3). -/
def State.withFetchWord (s : State) (nbits w : Nat) : State :=
  { s with ops := placeWord s.ops s.opPos (BitVec.ofNat 32 (w % 2 ^ nbits)), sched := .issue :: s.sched }

end Sys2Proof.Machine
end

