-- ==== Sys2Proof/Machine/Assembler.lean ====
section
/-! DEFINITION. The spec's assembly (`30_encoding.md` R95, R96): a line of characters to a source line, a source line
to operations, and a program to operation words. A front end: no step of the machine reads it. -/

namespace Sys2Proof.Machine

/-- Why a line is no assembly. -/
inductive AsmError where
  /-- A name that is no mnemonic, pseudo-operation or register of R95 and R96. -/
  | unknownName
  /-- Text that is no number. -/
  | badNumber
  /-- The wrong number of operands. -/
  | operandCount
  /-- An operand outside its range: an assembly error (R95). -/
  | operandRange
deriving DecidableEq, Repr

/-- An operand that must lie below `bound`. -/
def inRange (n bound : Nat) : Except AsmError Nat := if n < bound then .ok n else .error .operandRange

/-- The number of a register (`10_state.md` R34). -/
def RegName.number : RegName → Nat
  | .status => 0
  | .widx => 1
  | .ridx => 2
  | .faultCause => 3
  | .config => 4
  | .wsync => 5
  | .rsync => 6

/-- PUSH of each byte, in order (R96, `PUSHS`). -/
def assemblePushes : List Nat → Except AsmError (List Instr)
  | [] => .ok []
  | b :: rest => do
    let v ← inRange b 256
    let is ← assemblePushes rest
    return .push (BitVec.ofNat 8 v) :: is

/-- The operations of one source line: ranges checked (R95), pseudo-operations expanded (R96). -/
def assembleLine : AsmLine → Except AsmError (List Instr)
  | .avail => .ok [.avail]
  | .isfull => .ok [.isfull]
  | .push b => assemblePushes [b]
  | .advrd n => do return [.advrd (BitVec.ofNat 16 (← inRange n (2 ^ 16)))]
  | .drainTick => .ok [.drainTick]
  | .drainDone => .ok [.drainDone]
  | .capture => .ok [.capture]
  | .setline baud dataBits => do
    let b ← inRange baud (2 ^ 24)
    let d ← inRange dataBits 16
    return [.setline (BitVec.ofNat 4 d) (BitVec.ofNat 24 b)]
  | .getbaud => .ok [.getbaud]
  | .fence => .ok [.fence]
  | .rdreg (.name r) => .ok [.rdreg (BitVec.ofNat 4 (RegName.number r))]
  | .rdreg (.number n) => do return [.rdreg (BitVec.ofNat 4 (← inRange n 7))]
  | .drain => .ok [.drainTick]
  | .pushs first rest => assemblePushes (first :: rest)
  | .sync => .ok [.fence]

/-- The operations of a program, line by line (R95). -/
def assembleLines : List AsmLine → Except AsmError (List Instr)
  | [] => .ok []
  | line :: rest => do
    let is ← assembleLine line
    let js ← assembleLines rest
    return is ++ js

/-- The operation words of a program. -/
def assembleWords (lines : List AsmLine) : Except AsmError (List Word) := do
  return (← assembleLines lines).map encode

/-! ## The text of a line -/

/-- White space within a line. -/
def isBlank (c : Char) : Bool := c == ' ' || c == '\t' || c == '\r'

/-- The text with the white space at both ends removed. -/
def trim (cs : List Char) : List Char := ((cs.dropWhile isBlank).reverse.dropWhile isBlank).reverse

/-- The text before a comment, which `;` starts (R95). -/
def beforeComment (cs : List Char) : List Char := cs.takeWhile (· != ';')

/-- The parts of a text between separators. -/
def splitAtChar (sep : Char) : List Char → List (List Char)
  | [] => [[]]
  | c :: cs =>
    if c == sep then [] :: splitAtChar sep cs
    else match splitAtChar sep cs with
      | [] => [[c]]
      | part :: parts => (c :: part) :: parts

/-- The value of a digit in a base of at most 16. -/
def digitValue (base : Nat) (c : Char) : Except AsmError Nat :=
  let v := if '0' ≤ c && c ≤ '9' then c.toNat - 48
    else if 'a' ≤ c && c ≤ 'f' then c.toNat - 87
    else if 'A' ≤ c && c ≤ 'F' then c.toNat - 55
    else base
  if v < base then .ok v else .error .badNumber

/-- The digits of a number, most significant first, after those already read. -/
def digitsValue (base acc : Nat) : List Char → Except AsmError Nat
  | [] => .ok acc
  | c :: cs =>
    match digitValue base c with
    | .ok v => digitsValue base (acc * base + v) cs
    | .error e => .error e

/-- A number, in decimal or with `0x` in hexadecimal (R95). -/
def numberOf : List Char → Except AsmError Nat
  | [] => .error .badNumber
  | ['0', 'x'] => .error .badNumber
  | '0' :: 'x' :: digits => digitsValue 16 0 digits
  | digits => digitsValue 10 0 digits

/-- The register names of R34, as RDREG takes them (R95). -/
def regNames : List (List Char × RegName) :=
  [(['S', 'T', 'A', 'T', 'U', 'S'], .status), (['W', 'I', 'D', 'X'], .widx), (['R', 'I', 'D', 'X'], .ridx),
   (['F', 'A', 'U', 'L', 'T', '_', 'C', 'A', 'U', 'S', 'E'], .faultCause),
   (['C', 'O', 'N', 'F', 'I', 'G'], .config), (['W', 'S', 'Y', 'N', 'C'], .wsync), (['R', 'S', 'Y', 'N', 'C'], .rsync)]

/-- RDREG's operand: a register name or a number (R95). -/
def regOperandOf (cs : List Char) : Except AsmError RegOperand :=
  match regNames.lookup cs with
  | some r => .ok (.name r)
  | none =>
    match numberOf cs with
    | .ok n => .ok (.number n)
    | .error e => .error e

/-- A line that takes no operand. -/
def noOperand (line : AsmLine) : List (List Char) → Except AsmError AsmLine
  | [] => .ok line
  | _ => .error .operandCount

/-- A line that takes one number. -/
def oneNumber (make : Nat → AsmLine) : List (List Char) → Except AsmError AsmLine
  | [a] => do return make (← numberOf a)
  | _ => .error .operandCount

/-- SETLINE's operands. -/
def twoNumbers (make : Nat → Nat → AsmLine) : List (List Char) → Except AsmError AsmLine
  | [a, b] => do return make (← numberOf a) (← numberOf b)
  | _ => .error .operandCount

/-- RDREG's operand. -/
def oneRegister : List (List Char) → Except AsmError AsmLine
  | [a] => do return .rdreg (← regOperandOf a)
  | _ => .error .operandCount

/-- PUSHS's operands. -/
def manyNumbers : List (List Char) → Except AsmError AsmLine
  | [] => .error .operandCount
  | a :: rest => do return .pushs (← numberOf a) (← rest.mapM numberOf)

/-- The mnemonics of R95 and the pseudo-operations of R96, each with what reads its operands. -/
def mnemonics : List (List Char × (List (List Char) → Except AsmError AsmLine)) :=
  [(['A', 'V', 'A', 'I', 'L'], noOperand .avail), (['I', 'S', 'F', 'U', 'L', 'L'], noOperand .isfull),
   (['P', 'U', 'S', 'H'], oneNumber .push), (['A', 'D', 'V', 'R', 'D'], oneNumber .advrd),
   (['D', 'R', 'A', 'I', 'N', '.', 'T', 'I', 'C', 'K'], noOperand .drainTick),
   (['D', 'R', 'A', 'I', 'N', '.', 'D', 'O', 'N', 'E'], noOperand .drainDone),
   (['C', 'A', 'P', 'T', 'U', 'R', 'E'], noOperand .capture),
   (['S', 'E', 'T', 'L', 'I', 'N', 'E'], twoNumbers .setline),
   (['G', 'E', 'T', 'B', 'A', 'U', 'D'], noOperand .getbaud), (['F', 'E', 'N', 'C', 'E'], noOperand .fence),
   (['R', 'D', 'R', 'E', 'G'], oneRegister), (['D', 'R', 'A', 'I', 'N'], noOperand .drain),
   (['P', 'U', 'S', 'H', 'S'], manyNumbers), (['S', 'Y', 'N', 'C'], noOperand .sync)]

/-- One line of text: the mnemonic, then its operands separated by commas, then perhaps a comment (R95). A line with
nothing before its comment is no source line. -/
def parseLine (cs : List Char) : Except AsmError (Option AsmLine) :=
  match trim (beforeComment cs) with
  | [] => .ok none
  | text =>
    let operands := trim (text.dropWhile fun c => !isBlank c)
    match mnemonics.lookup (text.takeWhile fun c => !isBlank c) with
    | none => .error .unknownName
    | some readOperands =>
      match readOperands (if operands.isEmpty then [] else (splitAtChar ',' operands).map trim) with
      | .ok line => .ok (some line)
      | .error e => .error e

/-- The source lines of a text, one operation per line (R95). -/
def parseText (cs : List Char) : Except AsmError (List AsmLine) := do
  return (← (splitAtChar '\n' cs).mapM parseLine).filterMap id

/-- The operation words of an assembly text (R95, R96). -/
def assembleText (cs : List Char) : Except AsmError (List Word) := do assembleWords (← parseText cs)

end Sys2Proof.Machine
end

