-- ==== Sys2Proof/Safety.lean ====
section
/-! DEFINITION. The terms claims are stated in: the invariant of every reachable state (`20_memory.md` R73 and the
ranges of `10_state.md` R20), failed, ended and final states (`60_exceptions.md` R244, `44_control_port.md` R222,
`00_scope.md` R8), runs and their fairness (`70_reset_and_hazards.md` R301), and the FIFO the ring stands for (`20_memory.md` R71). -/

namespace Sys2Proof.Machine

/-! ## The invariant -/

/-- Every index register is in `[0, C)` (R21). -/
abbrev State.IndexBounds (s : State) : Prop := s.w < s.cap ∧ s.r < s.cap ∧ s.wSync < s.cap ∧ s.rSync < s.cap

/-- R73, item 1: from `r_sync` one meets `r`, then `w_sync`, then `w`, within `C - 1` steps. -/
abbrev State.RingOrdered (s : State) : Prop :=
  ringDist s.cap s.rSync s.r + ringDist s.cap s.r s.wSync + ringDist s.cap s.wSync s.w ≤ s.cap - 1

/-- The pending count `dist(r, w)` (R73, item 2). -/
abbrev State.pending (s : State) : Nat := ringDist s.cap s.r s.w

/-- R73, item 2: every unread cell holds a value. -/
abbrev State.UnreadHeld (s : State) : Prop :=
  ∀ i, i < s.pending → (s.storage.read ((s.r + i) % s.cap)).isSome = true

/-- R73, item 3, with the ranges of R20 and R135: an outstanding offer starts at `r`, is not empty, covers only bytes
the consumer sees, is no longer than a chunk and does not straddle the end of storage. -/
abbrev State.OfferInside (s : State) : Prop :=
  s.drnState = .offer → s.offerOff = s.r ∧ 1 ≤ s.offerLen ∧ s.offerLen ≤ s.pendingC ∧ s.offerLen ≤ s.cfg.maxChunk
    ∧ s.offerOff + s.offerLen ≤ s.cap

/-- R151: the last record of `offers` is the outstanding offer, with the bytes its cells still hold. Every grant
establishes it (R137) and every step keeps it, but it is no part of `State.Inv`. DESIGN CHOICE (log entry 20): whether a
run may be launched with an offer outstanding while `offers` is empty is open (R222 admits any R73 state, R282 starts
the records empty); the model admits such a launch, and only a claim about the record itself takes this as a premise. -/
abbrev State.OfferRecorded (s : State) : Prop :=
  s.drnState = .offer → s.offers.getLast?.map (fun o => (o.offset, o.length, some o.bytes))
    = some (s.offerOff, s.offerLen, (s.readRun s.offerOff s.offerLen).toOption)

/-- Storage is in its canonical form and holds only cells below `C` (R60). -/
abbrev State.StorageCanonical (s : State) : Prop :=
  s.storage.wf = true ∧ s.storage.all (fun c => decide (c.1 < s.cap)) = true

/-- `flush_needed` is 0 outside an episode (R27). -/
abbrev State.FlushOutside (s : State) : Prop := s.capState = .idle → s.flushNeeded = false

/-- `fault` and `fault_cause` agree, and the codes 6 to 15 are never recorded (R242). -/
abbrev State.FaultRecord (s : State) : Prop :=
  (s.fault = true ↔ s.faultCause ≠ 0) ∧ s.faultCause.toNat ≤ 5

/-- The receiver's queue holds at most `RX_DEPTH` bytes (R45). -/
abbrev State.ReceiverBounded (s : State) : Prop := s.rxQueue.length ≤ s.cfg.rxDepth

/-- `op_pos` names a word of the program or its end (R40). -/
abbrev State.PortInside (s : State) : Prop := s.opPos ≤ s.ops.length

/-- What holds in every state a run reaches, whatever state of R73 it was launched in: the record of an offer
outstanding at the launch is not asked for (log entry 20). -/
abbrev State.Inv (s : State) : Prop :=
  s.cfg.legal = true ∧ s.IndexBounds ∧ s.RingOrdered ∧ s.UnreadHeld ∧ s.OfferInside
    ∧ s.StorageCanonical ∧ s.FlushOutside ∧ s.FaultRecord ∧ s.ReceiverBounded ∧ s.PortInside

/-! ## Runs -/

/-- A state that a program run may be launched in (R222, R282): any state of the block in program mode, with the run's
position at 0 and its records empty. An offer may be outstanding in it, which `offers` then does not hold. DESIGN CHOICE
(log entry 20). -/
abbrev State.LaunchesRun (s : State) : Prop :=
  s.Inv ∧ s.cfg.platformIrq = false ∧ s.opPos = 0 ∧ s.results = [] ∧ s.offers = [] ∧ s.delivered = []

/-- A failed run: a faulted state (R244). -/
abbrev State.failed (s : State) : Prop := s.fault = true

/-- The end of a program run, faulted or not: no agent has a step (R222). -/
abbrev State.ended (s : State) : Prop := s.opPos = s.ops.length ∧ s.quiescent = true

/-- A final state of a run: the run has ended there and has not failed, because a faulted state is never final (R8,
R244). -/
abbrev State.final (s : State) : Prop := s.ended ∧ ¬ s.failed

/-- The steps a program run in program mode with a silent receiver is made of (R222): the block's, the control port's
and the transport's. -/
def AgentStep.inProgramRun : AgentStep → Bool
  | .issue => true
  | .intake => true
  | .flush => true
  | .grant => true
  | .writeSync => true
  | .readSync => true
  | .answer _ => true
  | .rxArrive _ => false
  | .rxIdle => false
  | .irqStart => false
  | .reset => false

/-- Take the given steps in order, each of them enabled when it is taken. -/
def takeSteps : List AgentStep → State → Option State
  | [], s => some s
  | e :: rest, s =>
    if s.enabled e then
      match runStep e s with
      | .next t => takeSteps rest t
      | .fault _ => none
      | .refused _ => none
    else none

/-- An infinite run: at each position the agent step `who n` leads to the next state. -/
def IsRun (states : Nat → State) (who : Nat → AgentStep) : Prop :=
  ∀ n, runStep (who n) (states n) = .next (states (n + 1))

/-- The steps R301 assumes weak fairness of: all but the receiver's and reset. -/
def AgentStep.fair : AgentStep → Bool
  | .rxArrive _ => false
  | .rxIdle => false
  | .reset => false
  | .issue => true
  | .intake => true
  | .flush => true
  | .grant => true
  | .writeSync => true
  | .readSync => true
  | .answer _ => true
  | .irqStart => true

/-- Two steps of one agent that differ at most in what the environment draws: two answers of the transport. -/
def AgentStep.sameAs : AgentStep → AgentStep → Bool
  | .answer _, .answer _ => true
  | a, b => a == b

/-- Weak fairness (R301): a step that stays enabled is eventually taken. -/
def WeaklyFair (states : Nat → State) (who : Nat → AgentStep) : Prop :=
  ∀ e, AgentStep.fair e = true → ∀ n, (∀ m, n ≤ m → (states m).enabled e = true) →
    ∃ m, n ≤ m ∧ AgentStep.sameAs (who m) e = true

/-! ## The FIFO the ring stands for -/

/-- The queue of unread bytes, oldest first, and the bytes delivered (R71). -/
structure Fifo where
  queue : List Byte
  delivered : List Byte
deriving DecidableEq, Repr

/-- What one step does to the FIFO. -/
inductive FifoMove where
  | stay
  /-- One byte enters at the back. -/
  | put (b : Byte)
  /-- `n` bytes leave at the front, undelivered (ADVRD). -/
  | discard (n : Nat)
  /-- The front `k` bytes are delivered and stay (a short answer, R142, R150). -/
  | offerTaken (k : Nat)
  /-- The front `n` bytes are delivered and leave (a commit, R141). -/
  | commit (n : Nat)
  /-- Every unread byte is lost (reset, R283). -/
  | clear
deriving DecidableEq, Repr

/-- The FIFO after a move. -/
def FifoMove.apply : FifoMove → Fifo → Fifo
  | .stay, q => q
  | .put b, q => ⟨q.queue ++ [b], q.delivered⟩
  | .discard n, q => ⟨q.queue.drop n, q.delivered⟩
  | .offerTaken k, q => ⟨q.queue, q.delivered ++ q.queue.take k⟩
  | .commit n, q => ⟨q.queue.drop n, q.delivered ++ q.queue.take n⟩
  | .clear, q => ⟨[], q.delivered⟩

/-- The FIFO a state stands for: the bytes of the cells from `r` up to `w`. -/
def State.fifo (s : State) : Fifo :=
  ⟨(List.range s.pending).filterMap fun i => s.storage.read ((s.r + i) % s.cap), s.delivered⟩

/-- The move the issued word makes: only a PUSH and an ADVRD that take effect touch the FIFO. -/
def State.issueMove (s : State) : FifoMove :=
  match s.ops[s.opPos]? with
  | none => .stay
  | some word =>
    match decode word with
    | .ok (.push d) => if s.capState = .idle ∧ (s.w + 1) % s.cap ≠ s.rSync then .put d else .stay
    | .ok (.advrd n) => if s.drnState = .idle ∧ n.toNat ≤ ringDist s.cap s.r s.wSync then .discard n.toNat else .stay
    | _ => .stay

/-- The move each agent step makes, by the rules R110, R115, R141 to R143, R175 and R283. -/
def State.fifoMove (s : State) : AgentStep → FifoMove
  | .issue => s.issueMove
  | .intake =>
    match s.capState, s.rxQueue with
    | .loop, b :: _ => if (s.w + 1) % s.cap = s.rSync then .stay else .put b
    | _, _ => .stay
  | .answer k =>
    if s.drnState = .offer then
      if k.toNat = s.offerLen then .commit s.offerLen else if k.toNat < s.offerLen then .offerTaken k.toNat else .stay
    else .stay
  | .reset => .clear
  | .flush => .stay
  | .grant => .stay
  | .writeSync => .stay
  | .readSync => .stay
  | .rxArrive _ => .stay
  | .rxIdle => .stay
  | .irqStart => .stay

/-! ## The payload -/

/-- The state with every payload byte changed by `f` (`00_scope.md` R2): the bytes stored, queued, offered and
delivered, and nothing else. -/
def State.mapPayload (f : Byte → Byte) (s : State) : State :=
  { s with
    storage := s.storage.map fun c => (c.1, f c.2)
    rxQueue := s.rxQueue.map f
    offers := s.offers.map fun o => ⟨o.offset, o.length, o.bytes.map f⟩
    delivered := s.delivered.map f }

/-- The operation with its payload byte changed by `f`. -/
def Instr.mapPayload (f : Byte → Byte) : Instr → Instr
  | .push data => .push (f data)
  | .avail => .avail
  | .isfull => .isfull
  | .advrd n => .advrd n
  | .drainTick => .drainTick
  | .drainDone => .drainDone
  | .capture => .capture
  | .setline dbits baud => .setline dbits baud
  | .getbaud => .getbaud
  | .fence => .fence
  | .rdreg regno => .rdreg regno

/-- The agent step with its payload byte changed by `f`. -/
def AgentStep.mapPayload (f : Byte → Byte) : AgentStep → AgentStep
  | .rxArrive b => .rxArrive (f b)
  | .issue => .issue
  | .intake => .intake
  | .flush => .flush
  | .grant => .grant
  | .writeSync => .writeSync
  | .readSync => .readSync
  | .answer k => .answer k
  | .rxIdle => .rxIdle
  | .irqStart => .irqStart
  | .reset => .reset

/-- An outcome with every payload byte of its state changed by `f`. -/
def mapOutcome (f : Byte → Byte) : Host.Outcome State Fault Refusal → Host.Outcome State Fault Refusal
  | .next s => .next (s.mapPayload f)
  | .fault r => .fault r
  | .refused r => .refused r

end Sys2Proof.Machine
end

