-- ==== Sys2Proof/Certificates/Slice0/Obligations.lean ====
section
/-! DEFINITION. The statements for the provers, from the numbered rules of spec/. Each statement of an operation gives
its whole next state, so that what it does not name is unchanged. `2 ^ s.cfg.k` is the capacity `C`; a held word
answers the same state (log entry 5). -/

open Sys2Proof Sys2Proof.Machine

/-! ## Encoding -/

/-- Decode and encode agree on every well-formed operation, every operand at every value (R81 to R89, R92). -/
def Obligations.DecodeOfEncode : Prop := ∀ i : Instr, i.wf = true → decode (encode i) = .ok i

/-- Each operation has one word: a word that decodes is the encoding of what it decodes to, which is well formed. -/
def Obligations.EncodeOfDecode : Prop := ∀ (word : Word) (i : Instr), decode word = .ok i → i.wf = true ∧ encode i = word

/-- The opcode map of R89: a word selects a row when `word & mask = match`, and then decodes to that row's operation
with its operand bits; RDREG's row for `REGNO` up to 6 only; the opcodes 0x0 and 0xB to 0xF select none. -/
def Obligations.OpcodeMapSelectsRows : Prop :=
  ∀ word : Word,
    (word &&& 0xFFFFFFFF#32 = 0x10000000#32 ↔ decode word = .ok .avail)
    ∧ (word &&& 0xFFFFFFFF#32 = 0x20000000#32 ↔ decode word = .ok .isfull)
    ∧ (word &&& 0xFFFFFF00#32 = 0x30000000#32 ↔ decode word = .ok (.push (word.extractLsb' 0 8)))
    ∧ (word &&& 0xFFFF0000#32 = 0x40000000#32 ↔ decode word = .ok (.advrd (word.extractLsb' 0 16)))
    ∧ (word &&& 0xFFFFFFFF#32 = 0x50000000#32 ↔ decode word = .ok .drainTick)
    ∧ (word &&& 0xFFFFFFFF#32 = 0x50000001#32 ↔ decode word = .ok .drainDone)
    ∧ (word &&& 0xFFFFFFFF#32 = 0x60000000#32 ↔ decode word = .ok .capture)
    ∧ (word &&& 0xF0000000#32 = 0x70000000#32
        ↔ decode word = .ok (.setline (word.extractLsb' 24 4) (word.extractLsb' 0 24)))
    ∧ (word &&& 0xFFFFFFFF#32 = 0x80000000#32 ↔ decode word = .ok .getbaud)
    ∧ (word &&& 0xFFFFFFFF#32 = 0x90000000#32 ↔ decode word = .ok .fence)
    ∧ (word &&& 0xFFFFFFF0#32 = 0xA0000000#32 ∧ (word.extractLsb' 0 4).toNat ≤ 6
        ↔ decode word = .ok (.rdreg (word.extractLsb' 0 4)))
    ∧ ((word.extractLsb' 28 4).toNat = 0 ∨ 0xB ≤ (word.extractLsb' 28 4).toNat → ∀ i, decode word ≠ .ok i)

/-- Words written out from the formats of R81, and the operations they stand for. -/
def Obligations.SampleWordsDecode : Prop :=
  decode 0x300000FF#32 = .ok (.push 0xFF#8) ∧ decode 0x4000FFFF#32 = .ok (.advrd 65535#16)
    ∧ decode 0x50000001#32 = .ok .drainDone ∧ decode 0x60000000#32 = .ok .capture
    ∧ decode 0x7801C200#32 = .ok (.setline 8#4 115200#24) ∧ decode 0xA0000006#32 = .ok (.rdreg 6#4)
    ∧ decode 0x00000000#32 = .error .reservedOpcode ∧ decode 0x30000100#32 = .error .reservedField
    ∧ decode 0xA0000007#32 = .error .reservedRegister

/-- A word travels as bytes with bits 7:0 first (R94), and the decoder reads it back from those bytes. -/
def Obligations.WordsTravelLittleEndian : Prop :=
  ∀ (word : Word) (rest : List Byte),
    (∃ b0 b1 b2 b3, bytesOfWord word = [b0, b1, b2, b3]
      ∧ word.toNat = b0.toNat + 2 ^ 8 * b1.toNat + 2 ^ 16 * b2.toNat + 2 ^ 24 * b3.toNat)
    ∧ (∀ i, decode word = .ok i → decodeBytes (bytesOfWord word ++ rest) = .ok (i, rest))
    ∧ (∀ e, decode word = .error e → decodeBytes (bytesOfWord word ++ rest) = .error e)

/-- The assembler never emits an illegal word (R95): whatever it accepts decodes, word by word, to what it assembled. -/
def Obligations.AssembledWordsAreLegal : Prop :=
  ∀ (lines : List AsmLine) (words : List Word), assembleWords lines = .ok words →
    ∃ is, assembleLines lines = .ok is ∧ words.map decode = is.map Except.ok

/-- The pseudo-operations of R96 expand to the operations they stand for. -/
def Obligations.PseudoOperationsExpand : Prop :=
  assembleLine .drain = .ok [.drainTick] ∧ assembleLine .sync = .ok [.fence]
    ∧ ∀ (b : Nat) (rest : List Nat), (∀ v, v ∈ b :: rest → v < 256) →
        assembleLine (.pushs b rest) = .ok ((b :: rest).map fun v => .push (BitVec.ofNat 8 v))

/-! ## The step and the configuration -/

/-- A step runs the decoded instruction: where the schedule (or, when it is empty, the free draw) gives the control port
the move and the word at `op_pos` decodes to `i`, the step is `exec` of `i`; all that stands around it is the choice
itself, consumed (log entry 4). -/
def Obligations.StepRunsDecodedInstruction : Prop :=
  (∀ (s : State) (word : Word) (i : Instr), s.cfg.legal = true → s.nextStep = .issue → s.ops[s.opPos]? = some word →
      decode word = .ok i → step s = exec i s.popStep)
    ∧ (∀ (s : State) e rest, s.sched = e :: rest → s.nextStep = e ∧ s.popStep = { s with sched := rest })
    ∧ (∀ s : State, s.sched = [] → s.nextStep = Config.drawStep s.draws ∧ s.popStep = { s with draws := s.draws + 1 })

/-- A configuration outside the legal range of R3 is refused, and nothing else is (R8); `step` is what refuses it (log
entry 19). -/
def Obligations.OnlyIllegalConfigurationsAreRefused : Prop :=
  ∀ s : State,
    (1 ≤ s.cfg.k ∧ s.cfg.k ≤ 16 ∧ 1 ≤ s.cfg.maxChunk ∧ s.cfg.maxChunk ≤ 2 ^ 24 - 1 ∧ 1 ≤ s.cfg.rxDepth
        → ∀ why, step s ≠ .refused why)
    ∧ (¬ (1 ≤ s.cfg.k ∧ s.cfg.k ≤ 16 ∧ 1 ≤ s.cfg.maxChunk ∧ s.cfg.maxChunk ≤ 2 ^ 24 - 1 ∧ 1 ≤ s.cfg.rxDepth)
        → step s = .refused .illegalConfig)

/-- No operation and no step changes the parameters (R5). -/
def Obligations.NoStepChangesTheConfiguration : Prop :=
  (∀ (i : Instr) (s t : State), exec i s = .next t → t.cfg = s.cfg)
    ∧ (∀ (e : AgentStep) (s t : State), runStep e s = .next t → t.cfg = s.cfg)

/-! ## The operations -/

/-- AVAIL (R102): the source's formula in the consumer view; nothing else but `op_pos` changes; never held. For indices
in range the result is that number, at most `C - 1`. -/
def Obligations.AvailEmitsFirstRun : Prop :=
  decode 0x10000000#32 = .ok .avail
    ∧ ∀ s : State, exec .avail s = .next { s with
        results := s.results ++ [BitVec.ofNat 32 (if s.r ≤ s.wSync then s.wSync - s.r else 2 ^ s.cfg.k - s.r)]
        opPos := s.opPos + 1 }
      ∧ (s.cfg.legal = true → s.r < 2 ^ s.cfg.k → s.wSync < 2 ^ s.cfg.k →
        ∃ v : Word, exec .avail s = .next { s with results := s.results ++ [v], opPos := s.opPos + 1 }
          ∧ v.toNat = (if s.r ≤ s.wSync then s.wSync - s.r else 2 ^ s.cfg.k - s.r) ∧ v.toNat ≤ 2 ^ s.cfg.k - 1)

/-- R101: `pending_c` is the remainder of `w_sync - r` modulo `C`, and the source's formula differs from it exactly when
`w_sync < r` and `w_sync ≠ 0`. -/
def Obligations.AvailAndPendingDifferOnlyWhenWrapped : Prop :=
  ∀ s : State, s.r < 2 ^ s.cfg.k → s.wSync < 2 ^ s.cfg.k →
    (s.pendingC : Int) = ((s.wSync : Int) - s.r) % (2 ^ s.cfg.k : Nat)
    ∧ (availFn (2 ^ s.cfg.k) s.wSync s.r = if s.r ≤ s.wSync then s.wSync - s.r else 2 ^ s.cfg.k - s.r)
    ∧ (availFn (2 ^ s.cfg.k) s.wSync s.r ≠ s.pendingC ↔ s.wSync < s.r ∧ s.wSync ≠ 0)

/-- R103: where the unread bytes do not wrap, AVAIL emits the pending count; and from reset, after `k ≤ C - 1` pushes and
a write-synchroniser step, AVAIL returns `k`. -/
def Obligations.AvailCountsPushedBytes : Prop :=
  (∀ s : State, s.r ≤ s.wSync → s.wSync < 2 ^ s.cfg.k →
      exec .avail s = .next { s with
        results := s.results ++ [BitVec.ofNat 32 (ringDist (2 ^ s.cfg.k) s.r s.wSync)], opPos := s.opPos + 1 })
    ∧ ∀ (cfg : Params) (bytes : List Byte), cfg.legal = true → bytes.length ≤ 2 ^ cfg.k - 1 →
      ∃ t, Host.Core.run Sys2Proof.core (bytes.length + 2)
          (State.launch cfg (bytes.map (fun b => (0x30000000 ||| b.setWidth 32 : Word)) ++ [0x10000000#32]) [] false
            (List.replicate bytes.length .issue ++ [.writeSync, .issue])) = .next t
        ∧ t.results = [BitVec.ofNat 32 bytes.length] ∧ t.fault = false

/-- ISFULL (R105): 1 when `(w + 1) mod C = r_sync`, else 0; never held. In a state that keeps the invariant a ring that
is full by the true `r` is reported full, and an empty ring never is. -/
def Obligations.IsfullEmitsProducerView : Prop :=
  decode 0x20000000#32 = .ok .isfull
    ∧ ∀ s : State, exec .isfull s = .next { s with
        results := s.results ++ [if (s.w + 1) % 2 ^ s.cfg.k = s.rSync then 1 else 0], opPos := s.opPos + 1 }
      ∧ (s.Inv → (s.w + 1) % 2 ^ s.cfg.k = s.r →
        exec .isfull s = .next { s with results := s.results ++ [1], opPos := s.opPos + 1 })
      ∧ (s.Inv → s.w = s.rSync →
        exec .isfull s = .next { s with results := s.results ++ [0], opPos := s.opPos + 1 })

/-- PUSH (R110, R111): held while an episode runs; `PUSH_FULL` and nothing else when the ring is full in the producer
view; otherwise the byte is in cell `w`, every other cell is as before, and `w` advances modulo `C`. That `exec` of a
held PUSH answers the same state is the model's choice (log entry 5). -/
def Obligations.PushWritesOneCell : Prop :=
  ∀ (data : Byte) (s : State),
    decode (0x30000000 ||| data.setWidth 32) = .ok (.push data)
    ∧ (s.capState ≠ .idle → exec (.push data) s = .next s)
    ∧ (s.capState = .idle → (s.w + 1) % 2 ^ s.cfg.k = s.rSync →
        exec (.push data) s = .next { s with
          fault := true, faultCause := if s.faultCause = 0 then 2 else s.faultCause, opPos := s.opPos + 1 })
    ∧ (s.capState = .idle → (s.w + 1) % 2 ^ s.cfg.k ≠ s.rSync → s.w < 2 ^ s.cfg.k →
        ∃ t, exec (.push data) s = .next t
          ∧ (∀ a, t.storage.read a = if a = s.w then some data else s.storage.read a)
          ∧ t = { s with storage := t.storage, w := (s.w + 1) % 2 ^ s.cfg.k, opPos := s.opPos + 1 })

/-- ADVRD (R115, R116): held under an offer; `ADVANCE_OVERRUN` and nothing else above the consumer-view pending count;
otherwise `r` advances by `n` modulo `C`, and by 0 not at all. That `exec` of a held ADVRD answers the same state is the
model's choice (log entry 5). -/
def Obligations.AdvrdAdvancesReadIndex : Prop :=
  ∀ (n : BitVec 16) (s : State),
    decode (0x40000000 ||| n.setWidth 32) = .ok (.advrd n)
    ∧ (s.drnState = .offer → exec (.advrd n) s = .next s)
    ∧ (s.drnState = .idle → ringDist (2 ^ s.cfg.k) s.r s.wSync < n.toNat →
        exec (.advrd n) s = .next { s with
          fault := true, faultCause := if s.faultCause = 0 then 3 else s.faultCause, opPos := s.opPos + 1 })
    ∧ (s.drnState = .idle → n.toNat ≤ ringDist (2 ^ s.cfg.k) s.r s.wSync →
        exec (.advrd n) s = .next { s with r := (s.r + n.toNat) % 2 ^ s.cfg.k, opPos := s.opPos + 1 })
    ∧ (s.drnState = .idle → s.r < 2 ^ s.cfg.k → exec (.advrd 0) s = .next { s with opPos := s.opPos + 1 })

/-- DRAIN.TICK and DRAIN.DONE (R130): each sets its request bit, also while an offer is outstanding; never held. -/
def Obligations.DrainOperationsPostRequests : Prop :=
  decode 0x50000000#32 = .ok .drainTick ∧ decode 0x50000001#32 = .ok .drainDone
    ∧ ∀ s : State, exec .drainTick s = .next { s with reqTick := true, opPos := s.opPos + 1 }
      ∧ exec .drainDone s = .next { s with reqDone := true, opPos := s.opPos + 1 }

/-- CAPTURE (R170) and the episode start (R172): held while an episode runs; otherwise `flush_needed` takes the idle
condition, which is cleared in the same step, and the machine is in `C_LOOP`. That `exec` of a held CAPTURE answers the
same state is the model's choice (log entry 5). -/
def Obligations.CaptureStartsAnEpisode : Prop :=
  decode 0x60000000#32 = .ok .capture
    ∧ ∀ s : State,
      (s.capState ≠ .idle → exec .capture s = .next s)
      ∧ (s.capState = .idle → exec .capture s = .next { s with
          flushNeeded := s.rxIdle, rxIdle := false, capState := .loop, opPos := s.opPos + 1 })

/-- SETLINE (R200 to R202): every value is accepted and forwarded in the same step. -/
def Obligations.SetlineWritesAndForwards : Prop :=
  ∀ (dbits : DataBits) (baud : Baud) (s : State),
    decode (0x70000000 ||| dbits.setWidth 32 <<< 24 ||| baud.setWidth 32) = .ok (.setline dbits baud)
    ∧ exec (.setline dbits baud) s = .next { s with
        lineBaud := baud, lineDataBits := dbits, lineSet := true, rxConfig := some (baud, dbits)
        opPos := s.opPos + 1 }

/-- GETBAUD (R205): `LINE_UNSET` and no result before the first SETLINE since reset; then the read-back of the last
baud, a function the spec leaves open (R206, log entry 10): the statement holds for whatever it is. -/
def Obligations.GetbaudReadsBack : Prop :=
  decode 0x80000000#32 = .ok .getbaud
    ∧ ∀ s : State,
      (s.lineSet = false → exec .getbaud s = .next { s with
          fault := true, faultCause := if s.faultCause = 0 then 5 else s.faultCause, opPos := s.opPos + 1 })
      ∧ (s.lineSet = true → exec .getbaud s = .next { s with
          results := s.results ++ [Config.baudReadback s.lineBaud], opPos := s.opPos + 1 })

/-- FENCE (R226, R227): no effect, and held until the block is quiescent. That `exec` of a held FENCE answers the same
state is the model's choice (log entry 5). -/
def Obligations.FenceWaitsForQuiescence : Prop :=
  decode 0x90000000#32 = .ok .fence
    ∧ ∀ s : State,
      ((s.capState = .idle ∧ s.drnState = .idle ∧ s.reqCap = false ∧ s.reqDone = false ∧ s.reqTick = false
          ∧ s.wSync = s.w ∧ s.rSync = s.r) → exec .fence s = .next { s with opPos := s.opPos + 1 })
      ∧ (¬ (s.capState = .idle ∧ s.drnState = .idle ∧ s.reqCap = false ∧ s.reqDone = false ∧ s.reqTick = false
          ∧ s.wSync = s.w ∧ s.rSync = s.r) → exec .fence s = .next s)

/-- RDREG of the index registers (R36, R37, R41, R42): bits `[K-1:0]` hold the index, the others read 0; no state
changes but the result trace and `op_pos`. -/
def Obligations.RdregReadsIndices : Prop :=
  ∀ (s : State) (regno : BitVec 4) (index : Nat),
    (regno = 1 ∧ index = s.w) ∨ (regno = 2 ∧ index = s.r) ∨ (regno = 5 ∧ index = s.wSync)
      ∨ (regno = 6 ∧ index = s.rSync) →
    ∃ v : Word, exec (.rdreg regno) s = .next { s with results := s.results ++ [v], opPos := s.opPos + 1 }
      ∧ ∀ i, i < 32 → v.getLsbD i = (decide (i < s.cfg.k) && index.testBit i)

/-- RDREG STATUS (R35), every bit, and its value right after reset. -/
def Obligations.RdregReadsStatus : Prop :=
  (∀ (cfg : Params) (ops : List Word) (queue : List Byte) (idle : Bool) (sched : List AgentStep), cfg.legal = true →
    exec (.rdreg 0) (State.launch cfg ops queue idle sched)
      = .next { State.launch cfg ops queue idle sched with results := [1], opPos := 1 })
  ∧ ∀ s : State, ∃ v : Word,
    exec (.rdreg 0) s = .next { s with results := s.results ++ [v], opPos := s.opPos + 1 }
    ∧ v.getLsbD 0 = decide (s.wSync = s.r)
    ∧ v.getLsbD 1 = decide ((s.w + 1) % 2 ^ s.cfg.k = s.rSync)
    ∧ v.getLsbD 2 = decide (s.capState ≠ .idle)
    ∧ v.getLsbD 3 = decide (s.drnState = .offer)
    ∧ v.getLsbD 4 = s.reqCap ∧ v.getLsbD 5 = s.reqDone ∧ v.getLsbD 6 = s.reqTick
    ∧ v.getLsbD 7 = s.flushNeeded ∧ v.getLsbD 8 = s.lineSet ∧ v.getLsbD 9 = s.fault
    ∧ ∀ i, 10 ≤ i → v.getLsbD i = false

/-- RDREG FAULT_CAUSE (R38) and CONFIG (R39), every bit; the reserved numbers 7 to 15, which no word decodes to (R88),
act as an illegal word (log entry 13). -/
def Obligations.RdregReadsCauseAndConfig : Prop :=
  ∀ s : State,
    (∃ v : Word, exec (.rdreg 3) s = .next { s with results := s.results ++ [v], opPos := s.opPos + 1 }
      ∧ ∀ i, v.getLsbD i = (decide (i < 4) && s.faultCause.getLsbD i))
    ∧ (∃ v : Word, exec (.rdreg 4) s = .next { s with results := s.results ++ [v], opPos := s.opPos + 1 }
      ∧ ∀ i, i < 32 → v.getLsbD i =
          if i < 5 then s.cfg.k.testBit i else decide (8 ≤ i) && s.cfg.maxChunk.testBit (i - 8))
    ∧ ∀ regno : BitVec 4, 7 ≤ regno.toNat → exec (.rdreg regno) s = .next { s with
        fault := true, faultCause := if s.faultCause = 0 then 1 else s.faultCause, opPos := s.opPos + 1 }

/-- R220 and R221: which operations are held and when; a held word leaves everything as it is, which is the model's form
of a hold (log entry 5), and every other word advances `op_pos` by exactly one, whatever it does. -/
def Obligations.HeldWordsWaitOthersAdvance : Prop :=
  ∀ (i : Instr) (s : State),
    (s.held i = true ↔
      (∃ d, i = .push d) ∧ s.capState ≠ .idle ∨ (∃ n, i = .advrd n) ∧ s.drnState = .offer
        ∨ i = .capture ∧ s.capState ≠ .idle ∨ i = .fence ∧ s.quiescent = false)
    ∧ (s.held i = true → exec i s = .next s)
    ∧ (s.held i = false → s.w < 2 ^ s.cfg.k → ∃ t, exec i s = .next t ∧ t.opPos = s.opPos + 1)

/-- An illegal word (R90, R246): an unassigned opcode, a non-zero reserved field or a reserved register number, and no
other, decodes to ILLEGAL; issuing it records `ILLEGAL_OP` and advances `op_pos`, and nothing else; issuing a word that
decodes never records `ILLEGAL_OP`. -/
def Obligations.IllegalWordsRecordIllegalOp : Prop :=
  (∀ word : Word,
      (∀ i, decode word ≠ .ok i) ↔
        (word.toNat / 2 ^ 28 = 0 ∨ 0xB ≤ word.toNat / 2 ^ 28)
        ∨ (word.toNat / 2 ^ 28 ∈ [0x1, 0x2, 0x6, 0x8, 0x9] ∧ word.toNat % 2 ^ 28 ≠ 0)
        ∨ (word.toNat / 2 ^ 28 = 0x3 ∧ 2 ^ 8 ≤ word.toNat % 2 ^ 28)
        ∨ (word.toNat / 2 ^ 28 = 0x4 ∧ 2 ^ 16 ≤ word.toNat % 2 ^ 28)
        ∨ (word.toNat / 2 ^ 28 = 0x5 ∧ 2 ≤ word.toNat % 2 ^ 28)
        ∨ (word.toNat / 2 ^ 28 = 0xA ∧ 7 ≤ word.toNat % 2 ^ 28))
    ∧ (∀ (s : State) (word : Word), s.ops[s.opPos]? = some word → (∀ i, decode word ≠ .ok i) →
        runStep .issue s = .next { s with
          fault := true, faultCause := if s.faultCause = 0 then 1 else s.faultCause, opPos := s.opPos + 1 })
    ∧ (∀ (s t : State) (word : Word) (i : Instr), s.ops[s.opPos]? = some word → decode word = .ok i →
        s.faultCause ≠ 1 → runStep .issue s = .next t → t.faultCause ≠ 1)
    ∧ ∀ i, decode 0#32 ≠ .ok i

/-! ## The block's own steps -/

/-- The grant (R132 to R134, R139): enabled exactly when no offer is outstanding and a request is pending; it consumes
one request, CAP first, then DONE, then TICK; on an empty ring it does nothing else. That the step answers the same
state where it is not enabled is the model's choice (log entry 5). -/
def Obligations.GrantConsumesOneRequest : Prop :=
  ∀ s : State,
    (s.enabled .grant = true ↔ s.drnState = .idle ∧ (s.reqCap = true ∨ s.reqDone = true ∨ s.reqTick = true))
    ∧ (s.enabled .grant = false → runStep .grant s = .next s)
    ∧ (s.enabled .grant = true → s.wSync = s.r → runStep .grant s = .next { s with
        reqCap := false, reqDone := s.reqCap && s.reqDone, reqTick := (s.reqCap || s.reqDone) && s.reqTick })

/-- The offer (R133, R135 to R137): in a state that keeps the invariant, a grant on a ring that is not empty presents
the run from `r` to `w_sync` or to the end of storage, clamped to `MAX_CHUNK`, with the bytes of its cells in ascending
order. -/
def Obligations.GrantOffersTheContiguousRun : Prop :=
  ∀ s : State, s.Inv → s.enabled .grant = true → s.wSync ≠ s.r →
    ∃ t bytes, runStep .grant s = .next t
      ∧ t = { s with
          reqCap := false, reqDone := s.reqCap && s.reqDone, reqTick := (s.reqCap || s.reqDone) && s.reqTick
          offerOff := s.r, offerLen := t.offerLen, drnState := .offer
          offers := s.offers ++ [⟨s.r, t.offerLen, bytes⟩] }
      ∧ t.offerLen = min (if s.r < s.wSync then s.wSync - s.r else 2 ^ s.cfg.k - s.r) s.cfg.maxChunk
      ∧ bytes.length = t.offerLen
      ∧ ∀ i, i < t.offerLen → s.r + i < 2 ^ s.cfg.k ∧ bytes[i]? = s.storage.read (s.r + i)

/-- R147: no offer is longer than `min(C - 1, MAX_CHUNK)`, and none is empty (R138). -/
def Obligations.OffersAreBounded : Prop :=
  ∀ (e : AgentStep) (s t : State), s.Inv → runStep e s = .next t →
    t.offers = s.offers ∨ ∃ o, e = .grant ∧ t.offers = s.offers ++ [o] ∧ 1 ≤ o.length
      ∧ o.length ≤ min (2 ^ s.cfg.k - 1) s.cfg.maxChunk ∧ o.bytes.length = o.length

/-- The transport's answer (R140 to R143): full acceptance delivers the offered bytes and advances `r` by exactly the
offer, a short one delivers its `k` bytes and leaves `r`, one above the offer records `TRANSPORT_OVERACCEPT` and
delivers nothing. Where the offer is recorded (`State.OfferRecorded`; an offer outstanding at a launch need not be, log
entry 20), those bytes are the ones its record holds (R151). With no offer outstanding there is no such step; that it
then answers the same state is the model's choice (log entry 5). -/
def Obligations.TransportAnswerCommitsOrRetries : Prop :=
  ∀ (k : Word) (s : State),
    (s.drnState = .idle → runStep (.answer k) s = .next s)
    ∧ (s.drnState = .offer → s.offerLen < k.toNat → runStep (.answer k) s = .next { s with
        fault := true, faultCause := if s.faultCause = 0 then 4 else s.faultCause, drnState := .idle })
    ∧ (s.Inv → s.drnState = .offer → k.toNat ≤ s.offerLen →
        ∃ bytes : List Byte, bytes.length = s.offerLen
          ∧ (∀ i, i < s.offerLen → bytes[i]? = s.storage.read (s.offerOff + i))
          ∧ runStep (.answer k) s = .next { s with
              delivered := s.delivered ++ bytes.take k.toNat, drnState := .idle
              r := if k.toNat = s.offerLen then (s.r + s.offerLen) % 2 ^ s.cfg.k else s.r }
          ∧ (s.OfferRecorded → s.offers.getLast? = some ⟨s.offerOff, s.offerLen, bytes⟩))

/-- Intake (R175 to R177): in `C_LOOP` only; an empty queue ends the loop; otherwise the oldest byte is popped, and
pushed, or dropped with `flush_needed` set and the loop ended when the ring is full in the producer view. That the step
answers the same state outside `C_LOOP` is the model's choice (log entry 5). -/
def Obligations.IntakePopsOneByte : Prop :=
  ∀ s : State,
    (s.capState ≠ .loop → runStep .intake s = .next s)
    ∧ (s.capState = .loop → s.rxQueue = [] → runStep .intake s = .next { s with capState := .flush })
    ∧ (∀ b rest, s.capState = .loop → s.rxQueue = b :: rest → (s.w + 1) % 2 ^ s.cfg.k = s.rSync →
        runStep .intake s = .next { s with rxQueue := rest, flushNeeded := true, capState := .flush })
    ∧ (∀ b rest, s.capState = .loop → s.rxQueue = b :: rest → (s.w + 1) % 2 ^ s.cfg.k ≠ s.rSync →
        s.w < 2 ^ s.cfg.k →
        ∃ t, runStep .intake s = .next t
          ∧ (∀ a, t.storage.read a = if a = s.w then some b else s.storage.read a)
          ∧ t = { s with rxQueue := rest, storage := t.storage, w := (s.w + 1) % 2 ^ s.cfg.k })

/-- Flush (R178): in `C_FLUSH` only; with `flush_needed` the capture request and the write index cross together; the
episode ends. That the step answers the same state outside `C_FLUSH` is the model's choice (log entry 5). -/
def Obligations.FlushPostsAndEndsTheEpisode : Prop :=
  ∀ s : State,
    (s.capState ≠ .flush → runStep .flush s = .next s)
    ∧ (s.capState = .flush → s.flushNeeded = true → runStep .flush s = .next { s with
        reqCap := true, wSync := s.w, flushNeeded := false, capState := .idle })
    ∧ (s.capState = .flush → s.flushNeeded = false → runStep .flush s = .next { s with capState := .idle })

/-- R181 and R182: an episode that finds nothing changes nothing; one that starts with the ring full in the producer
view and a byte waiting drops that byte and posts a capture request, whatever the idle condition was. -/
def Obligations.WholeEpisodes : Prop :=
  ∀ s : State, s.Inv → s.capState = .idle →
    (s.rxQueue = [] → s.rxIdle = false → ∃ t, exec .capture s = .next t
      ∧ takeSteps [.intake, .flush] t = some { s with opPos := s.opPos + 1 })
    ∧ (∀ b rest, s.rxQueue = b :: rest → (s.w + 1) % 2 ^ s.cfg.k = s.rSync → ∃ t, exec .capture s = .next t
      ∧ takeSteps [.intake, .flush] t = some { s with
          opPos := s.opPos + 1, rxQueue := rest, rxIdle := false, reqCap := true, wSync := s.w })

/-- The synchronisers (R66, R67) copy the whole current index, and are enabled exactly when the copy differs. Where it
does not differ they have no step; that `runStep` then answers the same state is the model's choice (log entry 5). -/
def Obligations.SynchronisersCopyWholeIndices : Prop :=
  ∀ s : State,
    runStep .writeSync s = .next { s with wSync := s.w } ∧ runStep .readSync s = .next { s with rSync := s.r }
    ∧ (s.enabled .writeSync = true ↔ s.wSync ≠ s.w) ∧ (s.enabled .readSync = true ↔ s.rSync ≠ s.r)

/-- The receiver (R185, R186): a byte joins a queue that has room; in one that is full, the block's `RX_OVERRUN` keeps
the old bytes or drops the oldest, and one not fixed does one of the two, by a free draw (log entry 11). -/
def Obligations.ReceiverQueuesBytes : Prop :=
  ∀ (b : Byte) (s : State),
    runStep .rxIdle s = .next { s with rxIdle := true }
    ∧ (s.rxQueue.length < s.cfg.rxDepth →
        runStep (.rxArrive b) s = .next { s with rxQueue := s.rxQueue ++ [b] })
    ∧ (s.cfg.rxDepth ≤ s.rxQueue.length →
        (s.cfg.rxOverrun = .dropNew → runStep (.rxArrive b) s = .next s)
        ∧ (s.cfg.rxOverrun = .dropOldest →
            runStep (.rxArrive b) s = .next { s with rxQueue := s.rxQueue.tail ++ [b] })
        ∧ (s.cfg.rxOverrun = .unfixed →
            ∃ queue, (queue = s.rxQueue ∨ queue = s.rxQueue.tail ++ [b])
              ∧ runStep (.rxArrive b) s = .next { s with rxQueue := queue, draws := s.draws + 1 }))

/-- The interrupt wiring (R250): enabled in platform mode while a byte or the idle condition waits and no episode runs;
its step is the episode start, without moving the control port. That the step answers the same state where it is not
enabled is the model's choice (log entry 5). -/
def Obligations.WiringStartsEpisodes : Prop :=
  ∀ s : State,
    (s.enabled .irqStart = true ↔
      s.cfg.platformIrq = true ∧ (s.rxQueue ≠ [] ∨ s.rxIdle = true) ∧ s.capState = .idle)
    ∧ (s.enabled .irqStart = true → runStep .irqStart s = .next { s with
        flushNeeded := s.rxIdle, rxIdle := false, capState := .loop })
    ∧ (s.enabled .irqStart = false → runStep .irqStart s = .next s)

/-- Reset (R280 to R283): every element of R20's table takes the reset value the table gives, whatever it was; the
configuration and the receiver keep theirs, and so do the run's records and the model's schedule (the model's reading of
R282, log entry 18); an outstanding offer is abandoned, so that a late answer has no effect; the ring is empty. The registers R20 leaves unspecified (`offer_off`, `offer_len`, `line_baud`,
`line_data_bits`) are left open here. -/
def Obligations.ResetRestoresTheTable : Prop :=
  ∀ s : State, ∃ t : State, runStep .reset s = .next t
    ∧ t = { s with
        w := 0, r := 0, wSync := 0, rSync := 0, storage := t.storage, capState := .idle, flushNeeded := false
        reqCap := false, reqDone := false, reqTick := false, drnState := .idle, offerOff := t.offerOff
        offerLen := t.offerLen, lineSet := false, lineBaud := t.lineBaud, lineDataBits := t.lineDataBits
        fault := false, faultCause := 0 }
    ∧ (∀ a, t.storage.read a = none)
    ∧ (∀ k, t.enabled (.answer k) = false ∧ runStep (.answer k) t = .next t)
    ∧ t.fifo.queue = []

/-! ## The whole machine -/

/-- The invariant holds right after reset, whatever the legal configuration, the program, the schedule and a receiver
queue that fits (R73); `State.reset`, whose configuration and receiver are the model's choice (log entries 2 and 9), is
one such state. No offer is outstanding there, so none is without its record, and in program mode a run may be launched
there (R222, R282). -/
def Obligations.InvariantHoldsAtReset : Prop :=
  (State.reset.Inv ∧ State.reset.OfferRecorded ∧ State.reset.LaunchesRun)
    ∧ ∀ (cfg : Params) (ops : List Word) (queue : List Byte) (idle : Bool) (sched : List AgentStep),
      cfg.legal = true → queue.length ≤ cfg.rxDepth →
        (State.launch cfg ops queue idle sched).Inv ∧ (State.launch cfg ops queue idle sched).OfferRecorded
          ∧ (cfg.platformIrq = false → (State.launch cfg ops queue idle sched).LaunchesRun)

/-- Every step keeps the invariant: R73 with all its items, the ranges of R20, the canonical form of storage, R27, R45
and the codes of R242, for every operation and every agent; and it keeps the record of an outstanding offer (R151), where
there is one (an offer outstanding at a launch need not have one, log entry 20). -/
def Obligations.EveryStepKeepsTheInvariant : Prop :=
  ∀ s t : State, s.Inv → step s = .next t → t.Inv ∧ (s.OfferRecorded → t.OfferRecorded)

/-- R62 and R152: from a state that keeps the invariant no step reads a cell that holds no value, or touches a cell that
does not exist: every step answers a next state. -/
def Obligations.NoStepStopsTheMachine : Prop := ∀ s : State, s.Inv → ∃ t, step s = .next t

/-- R74 and R25: the only cell a step writes is `w`, which is not one of the unread cells, so every unread byte stays as
it is until reset. -/
def Obligations.UnreadBytesAreNeverOverwritten : Prop :=
  ∀ (e : AgentStep) (s t : State), s.Inv → e ≠ .reset → runStep e s = .next t →
    (∀ a, a ≠ s.w → t.storage.read a = s.storage.read a)
    ∧ (∀ a, (s.storage.read a).isSome = true → (t.storage.read a).isSome = true)
    ∧ ∀ i, i < ringDist (2 ^ s.cfg.k) s.r s.w →
      (s.r + i) % 2 ^ s.cfg.k ≠ s.w
        ∧ t.storage.read ((s.r + i) % 2 ^ s.cfg.k) = s.storage.read ((s.r + i) % 2 ^ s.cfg.k)

/-- R22 and R20: `w` and storage are written by the intake and by a PUSH while no episode runs, `r` by the answer to an
outstanding offer and by an ADVRD while none is, the copies by their synchronisers and (`w_sync`) by the flush; only
reset is free of this. -/
def Obligations.OnlyTheOwnersWriteTheRing : Prop :=
  ∀ (e : AgentStep) (s t : State), e ≠ .reset → runStep e s = .next t →
    (t.w ≠ s.w ∨ t.storage ≠ s.storage →
      e = .intake ∧ s.capState = .loop
      ∨ e = .issue ∧ s.capState = .idle ∧ ∃ word d, s.ops[s.opPos]? = some word ∧ decode word = .ok (.push d))
    ∧ (t.r ≠ s.r →
      (∃ k : Word, e = .answer k ∧ s.drnState = .offer ∧ k.toNat = s.offerLen)
      ∨ e = .issue ∧ s.drnState = .idle ∧ ∃ word n, s.ops[s.opPos]? = some word ∧ decode word = .ok (.advrd n))
    ∧ (t.wSync ≠ s.wSync → e = .writeSync ∨ e = .flush)
    ∧ (t.rSync ≠ s.rSync → e = .readSync)

/-- R242: the causes, their codes, and who raises each of them; no other step of any agent raises a fault. -/
def Obligations.FaultsHaveOneRaiser : Prop :=
  ∀ (e : AgentStep) (s t : State), s.fault = false → s.faultCause = 0 → runStep e s = .next t → t.fault = true →
    (e = .issue ∧ t.opPos = s.opPos + 1 ∧ ∃ word, s.ops[s.opPos]? = some word ∧
        ((∀ i, decode word ≠ .ok i) ∧ t.faultCause = 1
          ∨ (∃ d, decode word = .ok (.push d)) ∧ (s.w + 1) % 2 ^ s.cfg.k = s.rSync ∧ t.faultCause = 2
          ∨ (∃ n, decode word = .ok (.advrd n) ∧ ringDist (2 ^ s.cfg.k) s.r s.wSync < n.toNat) ∧ t.faultCause = 3
          ∨ decode word = .ok .getbaud ∧ s.lineSet = false ∧ t.faultCause = 5))
    ∨ (∃ k : Word, e = .answer k ∧ s.drnState = .offer ∧ s.offerLen < k.toNat ∧ t.faultCause = 4)

/-- R244 and R249: no step but reset clears the record, and a second fault leaves the first cause. -/
def Obligations.FaultRecordIsSticky : Prop :=
  ∀ (e : AgentStep) (s t : State), e ≠ .reset → runStep e s = .next t → s.fault = true →
    t.fault = true ∧ (s.faultCause ≠ 0 → t.faultCause = s.faultCause)

/-- R243: an operation that raises a fault changes nothing but the fault record and `op_pos`. -/
def Obligations.FaultingOperationsArePrecise : Prop :=
  ∀ (i : Instr) (s t : State), exec i s = .next t → s.fault = false → t.fault = true →
    t = { s with fault := true, faultCause := t.faultCause, opPos := s.opPos + 1 }

/-- R71: the ring is a FIFO. In a state that keeps the invariant, what a step does to the unread bytes, oldest first, and
to the bytes delivered is the abstract queue's move: put at the back, discard or commit at the front, take without
removing, or nothing; and no more than `C - 1` bytes are ever unread (R4). -/
def Obligations.TheRingIsAFifo : Prop :=
  ∀ (e : AgentStep) (s t : State), s.Inv → runStep e s = .next t →
    t.fifo = FifoMove.apply (s.fifoMove e) s.fifo ∧ t.fifo.queue.length = ringDist (2 ^ s.cfg.k) t.r t.w
      ∧ t.fifo.queue.length ≤ 2 ^ s.cfg.k - 1

/-- R145: where the unread bytes wrap, any two requests are pending, both runs fit a chunk and both answers are full, two
transactions and no fewer empty the ring: the first commits `r` to 0 with a request still pending, the second commits it
to `w_sync`. -/
def Obligations.WrappedDataNeedsTwoTransactions : Prop :=
  ∀ s : State, s.Inv → s.drnState = .idle →
    (s.reqCap = true ∧ s.reqDone = true ∨ s.reqCap = true ∧ s.reqTick = true ∨ s.reqDone = true ∧ s.reqTick = true) →
    0 < s.wSync → s.wSync < s.r → 2 ^ s.cfg.k - s.r ≤ s.cfg.maxChunk → s.wSync ≤ s.cfg.maxChunk →
    ∃ t u, takeSteps [.grant, .answer (BitVec.ofNat 32 (2 ^ s.cfg.k - s.r))] s = some t
      ∧ t.r = 0 ∧ t.wSync = s.wSync ∧ (t.reqCap = true ∨ t.reqDone = true ∨ t.reqTick = true)
      ∧ takeSteps [.grant, .answer (BitVec.ofNat 32 s.wSync)] t = some u
      ∧ u.r = u.wSync ∧ u.wSync = s.wSync ∧ u.offers.length = s.offers.length + 2

/-- R150: the `k` bytes of a short answer are offered again: whichever request the next transaction serves (R139), its
offer starts with the bytes already delivered, so downstream sees them twice. -/
def Obligations.ShortAnswersAreOfferedAgain : Prop :=
  ∀ (s : State) (k : Word), s.Inv → s.drnState = .offer → 0 < k.toNat → k.toNat < s.offerLen →
    (s.reqCap = true ∨ s.reqDone = true ∨ s.reqTick = true) →
    ∃ t u o, runStep (.answer k) s = .next t ∧ t.r = s.r ∧ t.fault = s.fault ∧ runStep .grant t = .next u
      ∧ u.offers = s.offers ++ [o] ∧ o.offset = s.offerOff ∧ k.toNat ≤ o.length
      ∧ t.delivered = s.delivered ++ o.bytes.take k.toNat ∧ (o.bytes.take k.toNat).length = k.toNat

/-- R2: the payload is opaque. Changing every payload byte by any function, in the state and in the operation or the
agent's step, changes the outcome by that function and in nothing else: no index, flag, result, fault or choice ever
depends on the value of a payload byte. -/
def Obligations.PayloadIsOpaque : Prop :=
  ∀ f : Byte → Byte,
    (∀ (i : Instr) (s : State), exec (Instr.mapPayload f i) (s.mapPayload f) = mapOutcome f (exec i s))
    ∧ ∀ (e : AgentStep) (s : State), e ≠ .issue →
        runStep (AgentStep.mapPayload f e) (s.mapPayload f) = mapOutcome f (runStep e s)

/-- R222: a program run has ended exactly in the states where no agent of it has a step; such a state is final exactly
when it is not faulted (R8). -/
def Obligations.RunsEndWhereNoAgentHasAStep : Prop :=
  ∀ s : State, s.PortInside → s.cfg.platformIrq = false →
    (s.ended ↔ ∀ e, AgentStep.inProgramRun e = true → s.enabled e = false)
    ∧ (s.final ↔ s.fault = false ∧ ∀ e, AgentStep.inProgramRun e = true → s.enabled e = false)

/-- R302, the bound: from a state that keeps the invariant, and so from every launch state, one with an offer outstanding
and no record of it among them (log entry 20), there is a number that no sequence of enabled steps of a
program run exceeds, and some such sequence reaches the end of the run. -/
def Obligations.ProgramRunsAreBounded : Prop :=
  ∀ s : State, s.Inv → s.cfg.platformIrq = false →
    (∃ bound, ∀ (es : List AgentStep) (t : State), (∀ e, e ∈ es → AgentStep.inProgramRun e = true) →
        takeSteps es s = some t → es.length ≤ bound)
    ∧ ∃ (es : List AgentStep) (t : State), (∀ e, e ∈ es → AgentStep.inProgramRun e = true)
        ∧ takeSteps es s = some t ∧ t.ended

/-- R302: under the weak fairness of R301 every program run with a silent receiver, from any state that keeps the
invariant (a launch state with an unrecorded offer among them, log entry 20), reaches `op_pos = len(ops)` and quiescence; the state it reaches is a final one exactly when the run records
no fault, at any of its positions (R8). -/
def Obligations.FairProgramRunsEnd : Prop :=
  ∀ (states : Nat → State) (who : Nat → AgentStep), (states 0).Inv → (states 0).cfg.platformIrq = false →
    IsRun states who → (∀ n, AgentStep.inProgramRun (who n) = true) → WeaklyFair states who →
    ∃ n, (states n).ended ∧ ((states n).final ↔ ∀ m, (states m).fault = false)

/-- R8 and R244: a faulted state is never a final state of a run, and no run without a reset leads from one to a final
state; the block keeps operating all the same: whatever the fault record holds, the same steps are enabled. -/
def Obligations.FaultedStatesAreNeverFinal : Prop :=
  (∀ (es : List AgentStep) (s t : State), AgentStep.reset ∉ es → takeSteps es s = some t →
      s.fault = true → t.fault = true ∧ ¬ t.final)
    ∧ (∀ s : State, s.final ↔ s.opPos = s.ops.length ∧ s.quiescent = true ∧ s.fault = false)
    ∧ ∀ (s : State) (e : AgentStep) (fault : Bool) (cause : BitVec 4),
      State.enabled { s with fault := fault, faultCause := cause } e = s.enabled e
end

