-- ==== Sys2Proof/Laws/Encoding.lean ====
section
/-! SUPPORT. The operation word as a number: its fields by division and remainder, and every encoding as a sum, so that
linear arithmetic closes what remains. -/

namespace Sys2Proof

/-- A field of a word, as a number. -/
theorem field_toNat (word : Word) (lo n : Nat) : (word.extractLsb' lo n).toNat = word.toNat / 2 ^ lo % 2 ^ n := by
  simp [BitVec.extractLsb'_toNat, Nat.shiftRight_eq_div_pow]

/-- A field is zero exactly when its number is. -/
theorem field_eq_zero (word : Word) (lo n : Nat) : word.extractLsb' lo n = 0 ↔ word.toNat / 2 ^ lo % 2 ^ n = 0 := by
  rw [← field_toNat, ← BitVec.toNat_inj]; simp

/-- The major opcode (R80). -/
theorem opcode_toNat (word : Word) : (word.extractLsb' 28 4).toNat = word.toNat / 2 ^ 28 := by
  rw [field_toNat]; have := word.isLt; omega

/-- What the reserved fields of a format admit (R81, R90). -/
theorem reservedZero_ok (word : Word) (lo : Nat) (i j : Instr) :
    reservedZero word lo i = .ok j ↔ word.toNat / 2 ^ lo % 2 ^ (28 - lo) = 0 ∧ i = j := by
  unfold reservedZero
  by_cases h : word.extractLsb' lo (28 - lo) = 0
  · simp [h, (field_eq_zero _ _ _).1 h]
  · rw [if_neg h]; rw [field_eq_zero] at h; simp [h]

/-- Two parts of a word that do not overlap add up. -/
theorem or_toNat_of_lt (a b : Nat) (i : Nat) (h : b < 2 ^ i) : 2 ^ i * a ||| b = 2 ^ i * a + b :=
  (Nat.two_pow_add_eq_or_of_lt h a).symm

/-- An operand below a fixed part adds to it. -/
theorem or_setWidth_toNat (n c : Nat) (x : BitVec n) (hn : n ≤ 32) (hc : 2 ^ n * c < 2 ^ 32) :
    (BitVec.ofNat 32 (2 ^ n * c) ||| x.setWidth 32).toNat = 2 ^ n * c + x.toNat := by
  have hx : x.toNat < 2 ^ 32 := Nat.lt_of_lt_of_le x.isLt (Nat.pow_le_pow_right (by omega) hn)
  rw [BitVec.toNat_or, BitVec.toNat_ofNat, BitVec.toNat_setWidth, Nat.mod_eq_of_lt hc, Nat.mod_eq_of_lt hx]
  exact or_toNat_of_lt c x.toNat n x.isLt

/-- PUSH's word (R83). -/
theorem encode_push_toNat (data : Byte) : (encode (.push data)).toNat = 0x30000000 + data.toNat :=
  or_setWidth_toNat 8 0x300000 data (by omega) (by omega)

/-- ADVRD's word (R84). -/
theorem encode_advrd_toNat (n : BitVec 16) : (encode (.advrd n)).toNat = 0x40000000 + n.toNat :=
  or_setWidth_toNat 16 0x4000 n (by omega) (by omega)

/-- RDREG's word (R87). -/
theorem encode_rdreg_toNat (regno : BitVec 4) : (encode (.rdreg regno)).toNat = 0xA0000000 + regno.toNat :=
  or_setWidth_toNat 4 0xA000000 regno (by omega) (by omega)

/-- SETLINE's word (R86). -/
theorem encode_setline_toNat (dbits : DataBits) (baud : Baud) :
    (encode (.setline dbits baud)).toNat = 0x70000000 + 2 ^ 24 * dbits.toNat + baud.toNat := by
  have hd := dbits.isLt
  have hb := baud.isLt
  have h1 := or_toNat_of_lt 7 (2 ^ 24 * dbits.toNat) 28 (by omega)
  have h2 := or_toNat_of_lt (0x70 + dbits.toNat) baud.toNat 24 hb
  simp only [encode, BitVec.toNat_or, BitVec.toNat_shiftLeft, BitVec.toNat_setWidth, Nat.shiftLeft_eq]
  rw [Nat.mod_eq_of_lt (show dbits.toNat < 2 ^ 32 by omega), Nat.mod_eq_of_lt (show baud.toNat < 2 ^ 32 by omega),
    Nat.mod_eq_of_lt (show dbits.toNat * 2 ^ 24 < 2 ^ 32 by omega), Nat.mul_comm dbits.toNat]
  change (2 ^ 28 * 7 ||| 2 ^ 24 * dbits.toNat) ||| baud.toNat = _
  rw [h1, show 2 ^ 28 * 7 + 2 ^ 24 * dbits.toNat = 2 ^ 24 * (0x70 + dbits.toNat) by omega, h2]
  omega

end Sys2Proof
end

