-- ==== Sys2Proof/Laws/State.lean ====
section
/-! SUPPORT. One lemma per field per update of State, so that no later proof unfolds a record update. -/

namespace Sys2Proof.Machine

variable (s : State)

/-! ## issued: the advance of `op_pos` (R221) -/

@[simp] theorem State.issued_cfg : s.issued.cfg = s.cfg := rfl
@[simp] theorem State.issued_w : s.issued.w = s.w := rfl
@[simp] theorem State.issued_r : s.issued.r = s.r := rfl
@[simp] theorem State.issued_storage : s.issued.storage = s.storage := rfl
@[simp] theorem State.issued_wSync : s.issued.wSync = s.wSync := rfl
@[simp] theorem State.issued_rSync : s.issued.rSync = s.rSync := rfl
@[simp] theorem State.issued_capState : s.issued.capState = s.capState := rfl
@[simp] theorem State.issued_flushNeeded : s.issued.flushNeeded = s.flushNeeded := rfl
@[simp] theorem State.issued_reqCap : s.issued.reqCap = s.reqCap := rfl
@[simp] theorem State.issued_reqDone : s.issued.reqDone = s.reqDone := rfl
@[simp] theorem State.issued_reqTick : s.issued.reqTick = s.reqTick := rfl
@[simp] theorem State.issued_drnState : s.issued.drnState = s.drnState := rfl
@[simp] theorem State.issued_offerOff : s.issued.offerOff = s.offerOff := rfl
@[simp] theorem State.issued_offerLen : s.issued.offerLen = s.offerLen := rfl
@[simp] theorem State.issued_lineSet : s.issued.lineSet = s.lineSet := rfl
@[simp] theorem State.issued_lineBaud : s.issued.lineBaud = s.lineBaud := rfl
@[simp] theorem State.issued_lineDataBits : s.issued.lineDataBits = s.lineDataBits := rfl
@[simp] theorem State.issued_fault : s.issued.fault = s.fault := rfl
@[simp] theorem State.issued_faultCause : s.issued.faultCause = s.faultCause := rfl
@[simp] theorem State.issued_ops : s.issued.ops = s.ops := rfl
@[simp] theorem State.issued_opPos : s.issued.opPos = s.opPos + 1 := rfl
@[simp] theorem State.issued_results : s.issued.results = s.results := rfl
@[simp] theorem State.issued_rxQueue : s.issued.rxQueue = s.rxQueue := rfl
@[simp] theorem State.issued_rxIdle : s.issued.rxIdle = s.rxIdle := rfl
@[simp] theorem State.issued_rxConfig : s.issued.rxConfig = s.rxConfig := rfl
@[simp] theorem State.issued_offers : s.issued.offers = s.offers := rfl
@[simp] theorem State.issued_delivered : s.issued.delivered = s.delivered := rfl
@[simp] theorem State.issued_sched : s.issued.sched = s.sched := rfl
@[simp] theorem State.issued_draws : s.issued.draws = s.draws := rfl

/-! ## emit: `emit Result(v)` (R44) -/

@[simp] theorem State.emit_cfg (v : Word) : (s.emit v).cfg = s.cfg := rfl
@[simp] theorem State.emit_w (v : Word) : (s.emit v).w = s.w := rfl
@[simp] theorem State.emit_r (v : Word) : (s.emit v).r = s.r := rfl
@[simp] theorem State.emit_storage (v : Word) : (s.emit v).storage = s.storage := rfl
@[simp] theorem State.emit_wSync (v : Word) : (s.emit v).wSync = s.wSync := rfl
@[simp] theorem State.emit_rSync (v : Word) : (s.emit v).rSync = s.rSync := rfl
@[simp] theorem State.emit_capState (v : Word) : (s.emit v).capState = s.capState := rfl
@[simp] theorem State.emit_flushNeeded (v : Word) : (s.emit v).flushNeeded = s.flushNeeded := rfl
@[simp] theorem State.emit_reqCap (v : Word) : (s.emit v).reqCap = s.reqCap := rfl
@[simp] theorem State.emit_reqDone (v : Word) : (s.emit v).reqDone = s.reqDone := rfl
@[simp] theorem State.emit_reqTick (v : Word) : (s.emit v).reqTick = s.reqTick := rfl
@[simp] theorem State.emit_drnState (v : Word) : (s.emit v).drnState = s.drnState := rfl
@[simp] theorem State.emit_offerOff (v : Word) : (s.emit v).offerOff = s.offerOff := rfl
@[simp] theorem State.emit_offerLen (v : Word) : (s.emit v).offerLen = s.offerLen := rfl
@[simp] theorem State.emit_lineSet (v : Word) : (s.emit v).lineSet = s.lineSet := rfl
@[simp] theorem State.emit_lineBaud (v : Word) : (s.emit v).lineBaud = s.lineBaud := rfl
@[simp] theorem State.emit_lineDataBits (v : Word) : (s.emit v).lineDataBits = s.lineDataBits := rfl
@[simp] theorem State.emit_fault (v : Word) : (s.emit v).fault = s.fault := rfl
@[simp] theorem State.emit_faultCause (v : Word) : (s.emit v).faultCause = s.faultCause := rfl
@[simp] theorem State.emit_ops (v : Word) : (s.emit v).ops = s.ops := rfl
@[simp] theorem State.emit_opPos (v : Word) : (s.emit v).opPos = s.opPos := rfl
@[simp] theorem State.emit_results (v : Word) : (s.emit v).results = s.results ++ [v] := rfl
@[simp] theorem State.emit_rxQueue (v : Word) : (s.emit v).rxQueue = s.rxQueue := rfl
@[simp] theorem State.emit_rxIdle (v : Word) : (s.emit v).rxIdle = s.rxIdle := rfl
@[simp] theorem State.emit_rxConfig (v : Word) : (s.emit v).rxConfig = s.rxConfig := rfl
@[simp] theorem State.emit_offers (v : Word) : (s.emit v).offers = s.offers := rfl
@[simp] theorem State.emit_delivered (v : Word) : (s.emit v).delivered = s.delivered := rfl
@[simp] theorem State.emit_sched (v : Word) : (s.emit v).sched = s.sched := rfl
@[simp] theorem State.emit_draws (v : Word) : (s.emit v).draws = s.draws := rfl

/-! ## raiseFault: `raise Fault(cause)` (R241) -/

@[simp] theorem State.raiseFault_cfg (c : FaultCause) : (s.raiseFault c).cfg = s.cfg := rfl
@[simp] theorem State.raiseFault_w (c : FaultCause) : (s.raiseFault c).w = s.w := rfl
@[simp] theorem State.raiseFault_r (c : FaultCause) : (s.raiseFault c).r = s.r := rfl
@[simp] theorem State.raiseFault_storage (c : FaultCause) : (s.raiseFault c).storage = s.storage := rfl
@[simp] theorem State.raiseFault_wSync (c : FaultCause) : (s.raiseFault c).wSync = s.wSync := rfl
@[simp] theorem State.raiseFault_rSync (c : FaultCause) : (s.raiseFault c).rSync = s.rSync := rfl
@[simp] theorem State.raiseFault_capState (c : FaultCause) : (s.raiseFault c).capState = s.capState := rfl
@[simp] theorem State.raiseFault_flushNeeded (c : FaultCause) : (s.raiseFault c).flushNeeded = s.flushNeeded := rfl
@[simp] theorem State.raiseFault_reqCap (c : FaultCause) : (s.raiseFault c).reqCap = s.reqCap := rfl
@[simp] theorem State.raiseFault_reqDone (c : FaultCause) : (s.raiseFault c).reqDone = s.reqDone := rfl
@[simp] theorem State.raiseFault_reqTick (c : FaultCause) : (s.raiseFault c).reqTick = s.reqTick := rfl
@[simp] theorem State.raiseFault_drnState (c : FaultCause) : (s.raiseFault c).drnState = s.drnState := rfl
@[simp] theorem State.raiseFault_offerOff (c : FaultCause) : (s.raiseFault c).offerOff = s.offerOff := rfl
@[simp] theorem State.raiseFault_offerLen (c : FaultCause) : (s.raiseFault c).offerLen = s.offerLen := rfl
@[simp] theorem State.raiseFault_lineSet (c : FaultCause) : (s.raiseFault c).lineSet = s.lineSet := rfl
@[simp] theorem State.raiseFault_lineBaud (c : FaultCause) : (s.raiseFault c).lineBaud = s.lineBaud := rfl
@[simp] theorem State.raiseFault_lineDataBits (c : FaultCause) : (s.raiseFault c).lineDataBits = s.lineDataBits := rfl
@[simp] theorem State.raiseFault_fault (c : FaultCause) : (s.raiseFault c).fault = true := rfl
@[simp] theorem State.raiseFault_faultCause (c : FaultCause) : (s.raiseFault c).faultCause = if s.faultCause = 0 then c.code else s.faultCause := rfl
@[simp] theorem State.raiseFault_ops (c : FaultCause) : (s.raiseFault c).ops = s.ops := rfl
@[simp] theorem State.raiseFault_opPos (c : FaultCause) : (s.raiseFault c).opPos = s.opPos := rfl
@[simp] theorem State.raiseFault_results (c : FaultCause) : (s.raiseFault c).results = s.results := rfl
@[simp] theorem State.raiseFault_rxQueue (c : FaultCause) : (s.raiseFault c).rxQueue = s.rxQueue := rfl
@[simp] theorem State.raiseFault_rxIdle (c : FaultCause) : (s.raiseFault c).rxIdle = s.rxIdle := rfl
@[simp] theorem State.raiseFault_rxConfig (c : FaultCause) : (s.raiseFault c).rxConfig = s.rxConfig := rfl
@[simp] theorem State.raiseFault_offers (c : FaultCause) : (s.raiseFault c).offers = s.offers := rfl
@[simp] theorem State.raiseFault_delivered (c : FaultCause) : (s.raiseFault c).delivered = s.delivered := rfl
@[simp] theorem State.raiseFault_sched (c : FaultCause) : (s.raiseFault c).sched = s.sched := rfl
@[simp] theorem State.raiseFault_draws (c : FaultCause) : (s.raiseFault c).draws = s.draws := rfl

/-! ## advanceRead: the advance of `r` (R115) -/

@[simp] theorem State.advanceRead_cfg (n : Nat) : (s.advanceRead n).cfg = s.cfg := rfl
@[simp] theorem State.advanceRead_w (n : Nat) : (s.advanceRead n).w = s.w := rfl
@[simp] theorem State.advanceRead_r (n : Nat) : (s.advanceRead n).r = (s.r + n) % s.cap := rfl
@[simp] theorem State.advanceRead_storage (n : Nat) : (s.advanceRead n).storage = s.storage := rfl
@[simp] theorem State.advanceRead_wSync (n : Nat) : (s.advanceRead n).wSync = s.wSync := rfl
@[simp] theorem State.advanceRead_rSync (n : Nat) : (s.advanceRead n).rSync = s.rSync := rfl
@[simp] theorem State.advanceRead_capState (n : Nat) : (s.advanceRead n).capState = s.capState := rfl
@[simp] theorem State.advanceRead_flushNeeded (n : Nat) : (s.advanceRead n).flushNeeded = s.flushNeeded := rfl
@[simp] theorem State.advanceRead_reqCap (n : Nat) : (s.advanceRead n).reqCap = s.reqCap := rfl
@[simp] theorem State.advanceRead_reqDone (n : Nat) : (s.advanceRead n).reqDone = s.reqDone := rfl
@[simp] theorem State.advanceRead_reqTick (n : Nat) : (s.advanceRead n).reqTick = s.reqTick := rfl
@[simp] theorem State.advanceRead_drnState (n : Nat) : (s.advanceRead n).drnState = s.drnState := rfl
@[simp] theorem State.advanceRead_offerOff (n : Nat) : (s.advanceRead n).offerOff = s.offerOff := rfl
@[simp] theorem State.advanceRead_offerLen (n : Nat) : (s.advanceRead n).offerLen = s.offerLen := rfl
@[simp] theorem State.advanceRead_lineSet (n : Nat) : (s.advanceRead n).lineSet = s.lineSet := rfl
@[simp] theorem State.advanceRead_lineBaud (n : Nat) : (s.advanceRead n).lineBaud = s.lineBaud := rfl
@[simp] theorem State.advanceRead_lineDataBits (n : Nat) : (s.advanceRead n).lineDataBits = s.lineDataBits := rfl
@[simp] theorem State.advanceRead_fault (n : Nat) : (s.advanceRead n).fault = s.fault := rfl
@[simp] theorem State.advanceRead_faultCause (n : Nat) : (s.advanceRead n).faultCause = s.faultCause := rfl
@[simp] theorem State.advanceRead_ops (n : Nat) : (s.advanceRead n).ops = s.ops := rfl
@[simp] theorem State.advanceRead_opPos (n : Nat) : (s.advanceRead n).opPos = s.opPos := rfl
@[simp] theorem State.advanceRead_results (n : Nat) : (s.advanceRead n).results = s.results := rfl
@[simp] theorem State.advanceRead_rxQueue (n : Nat) : (s.advanceRead n).rxQueue = s.rxQueue := rfl
@[simp] theorem State.advanceRead_rxIdle (n : Nat) : (s.advanceRead n).rxIdle = s.rxIdle := rfl
@[simp] theorem State.advanceRead_rxConfig (n : Nat) : (s.advanceRead n).rxConfig = s.rxConfig := rfl
@[simp] theorem State.advanceRead_offers (n : Nat) : (s.advanceRead n).offers = s.offers := rfl
@[simp] theorem State.advanceRead_delivered (n : Nat) : (s.advanceRead n).delivered = s.delivered := rfl
@[simp] theorem State.advanceRead_sched (n : Nat) : (s.advanceRead n).sched = s.sched := rfl
@[simp] theorem State.advanceRead_draws (n : Nat) : (s.advanceRead n).draws = s.draws := rfl

/-! ## clearIdleFlag: `clear_idle_flag()` (R187) -/

@[simp] theorem State.clearIdleFlag_cfg : s.clearIdleFlag.cfg = s.cfg := rfl
@[simp] theorem State.clearIdleFlag_w : s.clearIdleFlag.w = s.w := rfl
@[simp] theorem State.clearIdleFlag_r : s.clearIdleFlag.r = s.r := rfl
@[simp] theorem State.clearIdleFlag_storage : s.clearIdleFlag.storage = s.storage := rfl
@[simp] theorem State.clearIdleFlag_wSync : s.clearIdleFlag.wSync = s.wSync := rfl
@[simp] theorem State.clearIdleFlag_rSync : s.clearIdleFlag.rSync = s.rSync := rfl
@[simp] theorem State.clearIdleFlag_capState : s.clearIdleFlag.capState = s.capState := rfl
@[simp] theorem State.clearIdleFlag_flushNeeded : s.clearIdleFlag.flushNeeded = s.flushNeeded := rfl
@[simp] theorem State.clearIdleFlag_reqCap : s.clearIdleFlag.reqCap = s.reqCap := rfl
@[simp] theorem State.clearIdleFlag_reqDone : s.clearIdleFlag.reqDone = s.reqDone := rfl
@[simp] theorem State.clearIdleFlag_reqTick : s.clearIdleFlag.reqTick = s.reqTick := rfl
@[simp] theorem State.clearIdleFlag_drnState : s.clearIdleFlag.drnState = s.drnState := rfl
@[simp] theorem State.clearIdleFlag_offerOff : s.clearIdleFlag.offerOff = s.offerOff := rfl
@[simp] theorem State.clearIdleFlag_offerLen : s.clearIdleFlag.offerLen = s.offerLen := rfl
@[simp] theorem State.clearIdleFlag_lineSet : s.clearIdleFlag.lineSet = s.lineSet := rfl
@[simp] theorem State.clearIdleFlag_lineBaud : s.clearIdleFlag.lineBaud = s.lineBaud := rfl
@[simp] theorem State.clearIdleFlag_lineDataBits : s.clearIdleFlag.lineDataBits = s.lineDataBits := rfl
@[simp] theorem State.clearIdleFlag_fault : s.clearIdleFlag.fault = s.fault := rfl
@[simp] theorem State.clearIdleFlag_faultCause : s.clearIdleFlag.faultCause = s.faultCause := rfl
@[simp] theorem State.clearIdleFlag_ops : s.clearIdleFlag.ops = s.ops := rfl
@[simp] theorem State.clearIdleFlag_opPos : s.clearIdleFlag.opPos = s.opPos := rfl
@[simp] theorem State.clearIdleFlag_results : s.clearIdleFlag.results = s.results := rfl
@[simp] theorem State.clearIdleFlag_rxQueue : s.clearIdleFlag.rxQueue = s.rxQueue := rfl
@[simp] theorem State.clearIdleFlag_rxIdle : s.clearIdleFlag.rxIdle = false := rfl
@[simp] theorem State.clearIdleFlag_rxConfig : s.clearIdleFlag.rxConfig = s.rxConfig := rfl
@[simp] theorem State.clearIdleFlag_offers : s.clearIdleFlag.offers = s.offers := rfl
@[simp] theorem State.clearIdleFlag_delivered : s.clearIdleFlag.delivered = s.delivered := rfl
@[simp] theorem State.clearIdleFlag_sched : s.clearIdleFlag.sched = s.sched := rfl
@[simp] theorem State.clearIdleFlag_draws : s.clearIdleFlag.draws = s.draws := rfl

/-! ## forwardLine: the forwarding to the receiver (R202) -/

@[simp] theorem State.forwardLine_cfg (b : Baud) (d : DataBits) : (s.forwardLine b d).cfg = s.cfg := rfl
@[simp] theorem State.forwardLine_w (b : Baud) (d : DataBits) : (s.forwardLine b d).w = s.w := rfl
@[simp] theorem State.forwardLine_r (b : Baud) (d : DataBits) : (s.forwardLine b d).r = s.r := rfl
@[simp] theorem State.forwardLine_storage (b : Baud) (d : DataBits) : (s.forwardLine b d).storage = s.storage := rfl
@[simp] theorem State.forwardLine_wSync (b : Baud) (d : DataBits) : (s.forwardLine b d).wSync = s.wSync := rfl
@[simp] theorem State.forwardLine_rSync (b : Baud) (d : DataBits) : (s.forwardLine b d).rSync = s.rSync := rfl
@[simp] theorem State.forwardLine_capState (b : Baud) (d : DataBits) : (s.forwardLine b d).capState = s.capState := rfl
@[simp] theorem State.forwardLine_flushNeeded (b : Baud) (d : DataBits) : (s.forwardLine b d).flushNeeded = s.flushNeeded := rfl
@[simp] theorem State.forwardLine_reqCap (b : Baud) (d : DataBits) : (s.forwardLine b d).reqCap = s.reqCap := rfl
@[simp] theorem State.forwardLine_reqDone (b : Baud) (d : DataBits) : (s.forwardLine b d).reqDone = s.reqDone := rfl
@[simp] theorem State.forwardLine_reqTick (b : Baud) (d : DataBits) : (s.forwardLine b d).reqTick = s.reqTick := rfl
@[simp] theorem State.forwardLine_drnState (b : Baud) (d : DataBits) : (s.forwardLine b d).drnState = s.drnState := rfl
@[simp] theorem State.forwardLine_offerOff (b : Baud) (d : DataBits) : (s.forwardLine b d).offerOff = s.offerOff := rfl
@[simp] theorem State.forwardLine_offerLen (b : Baud) (d : DataBits) : (s.forwardLine b d).offerLen = s.offerLen := rfl
@[simp] theorem State.forwardLine_lineSet (b : Baud) (d : DataBits) : (s.forwardLine b d).lineSet = s.lineSet := rfl
@[simp] theorem State.forwardLine_lineBaud (b : Baud) (d : DataBits) : (s.forwardLine b d).lineBaud = s.lineBaud := rfl
@[simp] theorem State.forwardLine_lineDataBits (b : Baud) (d : DataBits) : (s.forwardLine b d).lineDataBits = s.lineDataBits := rfl
@[simp] theorem State.forwardLine_fault (b : Baud) (d : DataBits) : (s.forwardLine b d).fault = s.fault := rfl
@[simp] theorem State.forwardLine_faultCause (b : Baud) (d : DataBits) : (s.forwardLine b d).faultCause = s.faultCause := rfl
@[simp] theorem State.forwardLine_ops (b : Baud) (d : DataBits) : (s.forwardLine b d).ops = s.ops := rfl
@[simp] theorem State.forwardLine_opPos (b : Baud) (d : DataBits) : (s.forwardLine b d).opPos = s.opPos := rfl
@[simp] theorem State.forwardLine_results (b : Baud) (d : DataBits) : (s.forwardLine b d).results = s.results := rfl
@[simp] theorem State.forwardLine_rxQueue (b : Baud) (d : DataBits) : (s.forwardLine b d).rxQueue = s.rxQueue := rfl
@[simp] theorem State.forwardLine_rxIdle (b : Baud) (d : DataBits) : (s.forwardLine b d).rxIdle = s.rxIdle := rfl
@[simp] theorem State.forwardLine_rxConfig (b : Baud) (d : DataBits) : (s.forwardLine b d).rxConfig = some (b, d) := rfl
@[simp] theorem State.forwardLine_offers (b : Baud) (d : DataBits) : (s.forwardLine b d).offers = s.offers := rfl
@[simp] theorem State.forwardLine_delivered (b : Baud) (d : DataBits) : (s.forwardLine b d).delivered = s.delivered := rfl
@[simp] theorem State.forwardLine_sched (b : Baud) (d : DataBits) : (s.forwardLine b d).sched = s.sched := rfl
@[simp] theorem State.forwardLine_draws (b : Baud) (d : DataBits) : (s.forwardLine b d).draws = s.draws := rfl

/-! ## deliver: the transport's acceptance (R141, R142) -/

@[simp] theorem State.deliver_cfg (bs : List Byte) : (s.deliver bs).cfg = s.cfg := rfl
@[simp] theorem State.deliver_w (bs : List Byte) : (s.deliver bs).w = s.w := rfl
@[simp] theorem State.deliver_r (bs : List Byte) : (s.deliver bs).r = s.r := rfl
@[simp] theorem State.deliver_storage (bs : List Byte) : (s.deliver bs).storage = s.storage := rfl
@[simp] theorem State.deliver_wSync (bs : List Byte) : (s.deliver bs).wSync = s.wSync := rfl
@[simp] theorem State.deliver_rSync (bs : List Byte) : (s.deliver bs).rSync = s.rSync := rfl
@[simp] theorem State.deliver_capState (bs : List Byte) : (s.deliver bs).capState = s.capState := rfl
@[simp] theorem State.deliver_flushNeeded (bs : List Byte) : (s.deliver bs).flushNeeded = s.flushNeeded := rfl
@[simp] theorem State.deliver_reqCap (bs : List Byte) : (s.deliver bs).reqCap = s.reqCap := rfl
@[simp] theorem State.deliver_reqDone (bs : List Byte) : (s.deliver bs).reqDone = s.reqDone := rfl
@[simp] theorem State.deliver_reqTick (bs : List Byte) : (s.deliver bs).reqTick = s.reqTick := rfl
@[simp] theorem State.deliver_drnState (bs : List Byte) : (s.deliver bs).drnState = .idle := rfl
@[simp] theorem State.deliver_offerOff (bs : List Byte) : (s.deliver bs).offerOff = s.offerOff := rfl
@[simp] theorem State.deliver_offerLen (bs : List Byte) : (s.deliver bs).offerLen = s.offerLen := rfl
@[simp] theorem State.deliver_lineSet (bs : List Byte) : (s.deliver bs).lineSet = s.lineSet := rfl
@[simp] theorem State.deliver_lineBaud (bs : List Byte) : (s.deliver bs).lineBaud = s.lineBaud := rfl
@[simp] theorem State.deliver_lineDataBits (bs : List Byte) : (s.deliver bs).lineDataBits = s.lineDataBits := rfl
@[simp] theorem State.deliver_fault (bs : List Byte) : (s.deliver bs).fault = s.fault := rfl
@[simp] theorem State.deliver_faultCause (bs : List Byte) : (s.deliver bs).faultCause = s.faultCause := rfl
@[simp] theorem State.deliver_ops (bs : List Byte) : (s.deliver bs).ops = s.ops := rfl
@[simp] theorem State.deliver_opPos (bs : List Byte) : (s.deliver bs).opPos = s.opPos := rfl
@[simp] theorem State.deliver_results (bs : List Byte) : (s.deliver bs).results = s.results := rfl
@[simp] theorem State.deliver_rxQueue (bs : List Byte) : (s.deliver bs).rxQueue = s.rxQueue := rfl
@[simp] theorem State.deliver_rxIdle (bs : List Byte) : (s.deliver bs).rxIdle = s.rxIdle := rfl
@[simp] theorem State.deliver_rxConfig (bs : List Byte) : (s.deliver bs).rxConfig = s.rxConfig := rfl
@[simp] theorem State.deliver_offers (bs : List Byte) : (s.deliver bs).offers = s.offers := rfl
@[simp] theorem State.deliver_delivered (bs : List Byte) : (s.deliver bs).delivered = s.delivered ++ bs := rfl
@[simp] theorem State.deliver_sched (bs : List Byte) : (s.deliver bs).sched = s.sched := rfl
@[simp] theorem State.deliver_draws (bs : List Byte) : (s.deliver bs).draws = s.draws := rfl

/-! ## makeOffer: an offer (R137) -/

@[simp] theorem State.makeOffer_cfg (off len : Nat) (bs : List Byte) : (s.makeOffer off len bs).cfg = s.cfg := rfl
@[simp] theorem State.makeOffer_w (off len : Nat) (bs : List Byte) : (s.makeOffer off len bs).w = s.w := rfl
@[simp] theorem State.makeOffer_r (off len : Nat) (bs : List Byte) : (s.makeOffer off len bs).r = s.r := rfl
@[simp] theorem State.makeOffer_storage (off len : Nat) (bs : List Byte) : (s.makeOffer off len bs).storage = s.storage := rfl
@[simp] theorem State.makeOffer_wSync (off len : Nat) (bs : List Byte) : (s.makeOffer off len bs).wSync = s.wSync := rfl
@[simp] theorem State.makeOffer_rSync (off len : Nat) (bs : List Byte) : (s.makeOffer off len bs).rSync = s.rSync := rfl
@[simp] theorem State.makeOffer_capState (off len : Nat) (bs : List Byte) : (s.makeOffer off len bs).capState = s.capState := rfl
@[simp] theorem State.makeOffer_flushNeeded (off len : Nat) (bs : List Byte) : (s.makeOffer off len bs).flushNeeded = s.flushNeeded := rfl
@[simp] theorem State.makeOffer_reqCap (off len : Nat) (bs : List Byte) : (s.makeOffer off len bs).reqCap = s.reqCap := rfl
@[simp] theorem State.makeOffer_reqDone (off len : Nat) (bs : List Byte) : (s.makeOffer off len bs).reqDone = s.reqDone := rfl
@[simp] theorem State.makeOffer_reqTick (off len : Nat) (bs : List Byte) : (s.makeOffer off len bs).reqTick = s.reqTick := rfl
@[simp] theorem State.makeOffer_drnState (off len : Nat) (bs : List Byte) : (s.makeOffer off len bs).drnState = .offer := rfl
@[simp] theorem State.makeOffer_offerOff (off len : Nat) (bs : List Byte) : (s.makeOffer off len bs).offerOff = off := rfl
@[simp] theorem State.makeOffer_offerLen (off len : Nat) (bs : List Byte) : (s.makeOffer off len bs).offerLen = len := rfl
@[simp] theorem State.makeOffer_lineSet (off len : Nat) (bs : List Byte) : (s.makeOffer off len bs).lineSet = s.lineSet := rfl
@[simp] theorem State.makeOffer_lineBaud (off len : Nat) (bs : List Byte) : (s.makeOffer off len bs).lineBaud = s.lineBaud := rfl
@[simp] theorem State.makeOffer_lineDataBits (off len : Nat) (bs : List Byte) : (s.makeOffer off len bs).lineDataBits = s.lineDataBits := rfl
@[simp] theorem State.makeOffer_fault (off len : Nat) (bs : List Byte) : (s.makeOffer off len bs).fault = s.fault := rfl
@[simp] theorem State.makeOffer_faultCause (off len : Nat) (bs : List Byte) : (s.makeOffer off len bs).faultCause = s.faultCause := rfl
@[simp] theorem State.makeOffer_ops (off len : Nat) (bs : List Byte) : (s.makeOffer off len bs).ops = s.ops := rfl
@[simp] theorem State.makeOffer_opPos (off len : Nat) (bs : List Byte) : (s.makeOffer off len bs).opPos = s.opPos := rfl
@[simp] theorem State.makeOffer_results (off len : Nat) (bs : List Byte) : (s.makeOffer off len bs).results = s.results := rfl
@[simp] theorem State.makeOffer_rxQueue (off len : Nat) (bs : List Byte) : (s.makeOffer off len bs).rxQueue = s.rxQueue := rfl
@[simp] theorem State.makeOffer_rxIdle (off len : Nat) (bs : List Byte) : (s.makeOffer off len bs).rxIdle = s.rxIdle := rfl
@[simp] theorem State.makeOffer_rxConfig (off len : Nat) (bs : List Byte) : (s.makeOffer off len bs).rxConfig = s.rxConfig := rfl
@[simp] theorem State.makeOffer_offers (off len : Nat) (bs : List Byte) : (s.makeOffer off len bs).offers = s.offers ++ [⟨off, len, bs⟩] := rfl
@[simp] theorem State.makeOffer_delivered (off len : Nat) (bs : List Byte) : (s.makeOffer off len bs).delivered = s.delivered := rfl
@[simp] theorem State.makeOffer_sched (off len : Nat) (bs : List Byte) : (s.makeOffer off len bs).sched = s.sched := rfl
@[simp] theorem State.makeOffer_draws (off len : Nat) (bs : List Byte) : (s.makeOffer off len bs).draws = s.draws := rfl

/-! ## episodeStart: the start of an episode (R172) -/

@[simp] theorem State.episodeStart_cfg : s.episodeStart.cfg = s.cfg := rfl
@[simp] theorem State.episodeStart_w : s.episodeStart.w = s.w := rfl
@[simp] theorem State.episodeStart_r : s.episodeStart.r = s.r := rfl
@[simp] theorem State.episodeStart_storage : s.episodeStart.storage = s.storage := rfl
@[simp] theorem State.episodeStart_wSync : s.episodeStart.wSync = s.wSync := rfl
@[simp] theorem State.episodeStart_rSync : s.episodeStart.rSync = s.rSync := rfl
@[simp] theorem State.episodeStart_capState : s.episodeStart.capState = .loop := rfl
@[simp] theorem State.episodeStart_flushNeeded : s.episodeStart.flushNeeded = s.rxIdle := rfl
@[simp] theorem State.episodeStart_reqCap : s.episodeStart.reqCap = s.reqCap := rfl
@[simp] theorem State.episodeStart_reqDone : s.episodeStart.reqDone = s.reqDone := rfl
@[simp] theorem State.episodeStart_reqTick : s.episodeStart.reqTick = s.reqTick := rfl
@[simp] theorem State.episodeStart_drnState : s.episodeStart.drnState = s.drnState := rfl
@[simp] theorem State.episodeStart_offerOff : s.episodeStart.offerOff = s.offerOff := rfl
@[simp] theorem State.episodeStart_offerLen : s.episodeStart.offerLen = s.offerLen := rfl
@[simp] theorem State.episodeStart_lineSet : s.episodeStart.lineSet = s.lineSet := rfl
@[simp] theorem State.episodeStart_lineBaud : s.episodeStart.lineBaud = s.lineBaud := rfl
@[simp] theorem State.episodeStart_lineDataBits : s.episodeStart.lineDataBits = s.lineDataBits := rfl
@[simp] theorem State.episodeStart_fault : s.episodeStart.fault = s.fault := rfl
@[simp] theorem State.episodeStart_faultCause : s.episodeStart.faultCause = s.faultCause := rfl
@[simp] theorem State.episodeStart_ops : s.episodeStart.ops = s.ops := rfl
@[simp] theorem State.episodeStart_opPos : s.episodeStart.opPos = s.opPos := rfl
@[simp] theorem State.episodeStart_results : s.episodeStart.results = s.results := rfl
@[simp] theorem State.episodeStart_rxQueue : s.episodeStart.rxQueue = s.rxQueue := rfl
@[simp] theorem State.episodeStart_rxIdle : s.episodeStart.rxIdle = false := rfl
@[simp] theorem State.episodeStart_rxConfig : s.episodeStart.rxConfig = s.rxConfig := rfl
@[simp] theorem State.episodeStart_offers : s.episodeStart.offers = s.offers := rfl
@[simp] theorem State.episodeStart_delivered : s.episodeStart.delivered = s.delivered := rfl
@[simp] theorem State.episodeStart_sched : s.episodeStart.sched = s.sched := rfl
@[simp] theorem State.episodeStart_draws : s.episodeStart.draws = s.draws := rfl

/-! ## clearGranted: the granted request is consumed (R139) -/

@[simp] theorem State.clearGranted_cfg : s.clearGranted.cfg = s.cfg := by
  unfold State.clearGranted; split <;> (try split) <;> rfl
@[simp] theorem State.clearGranted_w : s.clearGranted.w = s.w := by
  unfold State.clearGranted; split <;> (try split) <;> rfl
@[simp] theorem State.clearGranted_r : s.clearGranted.r = s.r := by
  unfold State.clearGranted; split <;> (try split) <;> rfl
@[simp] theorem State.clearGranted_storage : s.clearGranted.storage = s.storage := by
  unfold State.clearGranted; split <;> (try split) <;> rfl
@[simp] theorem State.clearGranted_wSync : s.clearGranted.wSync = s.wSync := by
  unfold State.clearGranted; split <;> (try split) <;> rfl
@[simp] theorem State.clearGranted_rSync : s.clearGranted.rSync = s.rSync := by
  unfold State.clearGranted; split <;> (try split) <;> rfl
@[simp] theorem State.clearGranted_capState : s.clearGranted.capState = s.capState := by
  unfold State.clearGranted; split <;> (try split) <;> rfl
@[simp] theorem State.clearGranted_flushNeeded : s.clearGranted.flushNeeded = s.flushNeeded := by
  unfold State.clearGranted; split <;> (try split) <;> rfl
@[simp] theorem State.clearGranted_reqCap : s.clearGranted.reqCap = false := by
  unfold State.clearGranted; split <;> (try split) <;> simp_all
@[simp] theorem State.clearGranted_reqDone : s.clearGranted.reqDone = (s.reqCap && s.reqDone) := by
  unfold State.clearGranted; split <;> (try split) <;> simp_all
@[simp] theorem State.clearGranted_reqTick : s.clearGranted.reqTick = ((s.reqCap || s.reqDone) && s.reqTick) := by
  unfold State.clearGranted; split <;> (try split) <;> simp_all
@[simp] theorem State.clearGranted_drnState : s.clearGranted.drnState = s.drnState := by
  unfold State.clearGranted; split <;> (try split) <;> rfl
@[simp] theorem State.clearGranted_offerOff : s.clearGranted.offerOff = s.offerOff := by
  unfold State.clearGranted; split <;> (try split) <;> rfl
@[simp] theorem State.clearGranted_offerLen : s.clearGranted.offerLen = s.offerLen := by
  unfold State.clearGranted; split <;> (try split) <;> rfl
@[simp] theorem State.clearGranted_lineSet : s.clearGranted.lineSet = s.lineSet := by
  unfold State.clearGranted; split <;> (try split) <;> rfl
@[simp] theorem State.clearGranted_lineBaud : s.clearGranted.lineBaud = s.lineBaud := by
  unfold State.clearGranted; split <;> (try split) <;> rfl
@[simp] theorem State.clearGranted_lineDataBits : s.clearGranted.lineDataBits = s.lineDataBits := by
  unfold State.clearGranted; split <;> (try split) <;> rfl
@[simp] theorem State.clearGranted_fault : s.clearGranted.fault = s.fault := by
  unfold State.clearGranted; split <;> (try split) <;> rfl
@[simp] theorem State.clearGranted_faultCause : s.clearGranted.faultCause = s.faultCause := by
  unfold State.clearGranted; split <;> (try split) <;> rfl
@[simp] theorem State.clearGranted_ops : s.clearGranted.ops = s.ops := by
  unfold State.clearGranted; split <;> (try split) <;> rfl
@[simp] theorem State.clearGranted_opPos : s.clearGranted.opPos = s.opPos := by
  unfold State.clearGranted; split <;> (try split) <;> rfl
@[simp] theorem State.clearGranted_results : s.clearGranted.results = s.results := by
  unfold State.clearGranted; split <;> (try split) <;> rfl
@[simp] theorem State.clearGranted_rxQueue : s.clearGranted.rxQueue = s.rxQueue := by
  unfold State.clearGranted; split <;> (try split) <;> rfl
@[simp] theorem State.clearGranted_rxIdle : s.clearGranted.rxIdle = s.rxIdle := by
  unfold State.clearGranted; split <;> (try split) <;> rfl
@[simp] theorem State.clearGranted_rxConfig : s.clearGranted.rxConfig = s.rxConfig := by
  unfold State.clearGranted; split <;> (try split) <;> rfl
@[simp] theorem State.clearGranted_offers : s.clearGranted.offers = s.offers := by
  unfold State.clearGranted; split <;> (try split) <;> rfl
@[simp] theorem State.clearGranted_delivered : s.clearGranted.delivered = s.delivered := by
  unfold State.clearGranted; split <;> (try split) <;> rfl
@[simp] theorem State.clearGranted_sched : s.clearGranted.sched = s.sched := by
  unfold State.clearGranted; split <;> (try split) <;> rfl
@[simp] theorem State.clearGranted_draws : s.clearGranted.draws = s.draws := by
  unfold State.clearGranted; split <;> (try split) <;> rfl

/-! ## popStep: the choice of the next agent step -/

@[simp] theorem State.popStep_cfg : s.popStep.cfg = s.cfg := by
  unfold State.popStep; split <;> rfl
@[simp] theorem State.popStep_w : s.popStep.w = s.w := by
  unfold State.popStep; split <;> rfl
@[simp] theorem State.popStep_r : s.popStep.r = s.r := by
  unfold State.popStep; split <;> rfl
@[simp] theorem State.popStep_storage : s.popStep.storage = s.storage := by
  unfold State.popStep; split <;> rfl
@[simp] theorem State.popStep_wSync : s.popStep.wSync = s.wSync := by
  unfold State.popStep; split <;> rfl
@[simp] theorem State.popStep_rSync : s.popStep.rSync = s.rSync := by
  unfold State.popStep; split <;> rfl
@[simp] theorem State.popStep_capState : s.popStep.capState = s.capState := by
  unfold State.popStep; split <;> rfl
@[simp] theorem State.popStep_flushNeeded : s.popStep.flushNeeded = s.flushNeeded := by
  unfold State.popStep; split <;> rfl
@[simp] theorem State.popStep_reqCap : s.popStep.reqCap = s.reqCap := by
  unfold State.popStep; split <;> rfl
@[simp] theorem State.popStep_reqDone : s.popStep.reqDone = s.reqDone := by
  unfold State.popStep; split <;> rfl
@[simp] theorem State.popStep_reqTick : s.popStep.reqTick = s.reqTick := by
  unfold State.popStep; split <;> rfl
@[simp] theorem State.popStep_drnState : s.popStep.drnState = s.drnState := by
  unfold State.popStep; split <;> rfl
@[simp] theorem State.popStep_offerOff : s.popStep.offerOff = s.offerOff := by
  unfold State.popStep; split <;> rfl
@[simp] theorem State.popStep_offerLen : s.popStep.offerLen = s.offerLen := by
  unfold State.popStep; split <;> rfl
@[simp] theorem State.popStep_lineSet : s.popStep.lineSet = s.lineSet := by
  unfold State.popStep; split <;> rfl
@[simp] theorem State.popStep_lineBaud : s.popStep.lineBaud = s.lineBaud := by
  unfold State.popStep; split <;> rfl
@[simp] theorem State.popStep_lineDataBits : s.popStep.lineDataBits = s.lineDataBits := by
  unfold State.popStep; split <;> rfl
@[simp] theorem State.popStep_fault : s.popStep.fault = s.fault := by
  unfold State.popStep; split <;> rfl
@[simp] theorem State.popStep_faultCause : s.popStep.faultCause = s.faultCause := by
  unfold State.popStep; split <;> rfl
@[simp] theorem State.popStep_ops : s.popStep.ops = s.ops := by
  unfold State.popStep; split <;> rfl
@[simp] theorem State.popStep_opPos : s.popStep.opPos = s.opPos := by
  unfold State.popStep; split <;> rfl
@[simp] theorem State.popStep_results : s.popStep.results = s.results := by
  unfold State.popStep; split <;> rfl
@[simp] theorem State.popStep_rxQueue : s.popStep.rxQueue = s.rxQueue := by
  unfold State.popStep; split <;> rfl
@[simp] theorem State.popStep_rxIdle : s.popStep.rxIdle = s.rxIdle := by
  unfold State.popStep; split <;> rfl
@[simp] theorem State.popStep_rxConfig : s.popStep.rxConfig = s.rxConfig := by
  unfold State.popStep; split <;> rfl
@[simp] theorem State.popStep_offers : s.popStep.offers = s.offers := by
  unfold State.popStep; split <;> rfl
@[simp] theorem State.popStep_delivered : s.popStep.delivered = s.delivered := by
  unfold State.popStep; split <;> rfl
@[simp] theorem State.popStep_sched : s.popStep.sched = s.sched.tail := by
  unfold State.popStep; split <;> simp_all
@[simp] theorem State.popStep_draws : s.popStep.draws = (if s.sched.isEmpty then s.draws + 1 else s.draws) := by
  unfold State.popStep; split <;> simp_all

end Sys2Proof.Machine
end

