-- ==== Sys2Proof/Laws/Memory.lean ====
section
/-! SUPPORT. The laws of storage: a read after a write, the canonical form and its uniqueness, and what each access of a
state can do. -/

namespace Sys2Proof.Machine

/-- A read of the cell just written gives the byte written. -/
@[simp] theorem Memory.read_write_same (m : Memory) (a : Nat) (v : Byte) : (m.write a v).read a = some v := by
  induction m with
  | nil => simp [Memory.write, Memory.read]
  | cons c m ih =>
    obtain ⟨x, u⟩ := c
    unfold Memory.write
    split
    · simp [Memory.read]
    · split
      · simp [Memory.read]
      · rename_i hne
        simp [Memory.read, hne, ih]

/-- A write leaves every other cell alone. -/
theorem Memory.read_write_other (m : Memory) (a b : Nat) (v : Byte) (h : a ≠ b) :
    (m.write a v).read b = m.read b := by
  induction m with
  | nil => simp [Memory.write, Memory.read, h]
  | cons c m ih =>
    obtain ⟨x, u⟩ := c
    unfold Memory.write
    split
    · simp [Memory.read, h]
    · split
      · rename_i hx
        subst hx
        simp [Memory.read, h]
      · simp [Memory.read, ih]

/-- One read after a write, both cases at once. -/
theorem Memory.read_write (m : Memory) (a b : Nat) (v : Byte) :
    (m.write a v).read b = if a = b then some v else m.read b := by
  split
  · subst b; simp
  · exact m.read_write_other a b v ‹_›

/-- A property of every index survives a write that has it. -/
theorem Memory.write_all (m : Memory) (a : Nat) (v : Byte) (p : Nat → Bool) (hp : p a = true)
    (h : m.all (fun c => p c.1) = true) : (m.write a v).all (fun c => p c.1) = true := by
  induction m with
  | nil => simp [Memory.write, hp]
  | cons c m ih =>
    obtain ⟨x, u⟩ := c
    simp only [List.all_cons, Bool.and_eq_true] at h
    unfold Memory.write
    split
    · simp [hp, h.1]; simpa using h.2
    · split
      · simp [hp]; simpa using h.2
      · simp only [List.all_cons, h.1, Bool.true_and]; exact ih h.2

/-- A write keeps the canonical form. -/
theorem Memory.write_wf (m : Memory) (a : Nat) (v : Byte) (h : m.wf = true) : (m.write a v).wf = true := by
  induction m with
  | nil => rfl
  | cons c m ih =>
    obtain ⟨x, u⟩ := c
    simp only [Memory.wf, Bool.and_eq_true] at h
    unfold Memory.write
    split
    · rename_i hax
      simp only [Memory.wf, List.all_cons, Bool.and_eq_true, decide_eq_true_eq]
      refine ⟨⟨hax, ?_⟩, h⟩
      simp only [List.all_eq_true, decide_eq_true_eq] at h ⊢
      exact fun y hy => Nat.lt_trans hax (h.1 y hy)
    · split
      · rename_i hxa
        subst hxa
        simpa [Memory.wf] using h
      · rename_i hax hne
        simp only [Memory.wf, Bool.and_eq_true]
        exact ⟨Memory.write_all m a v (fun y => decide (x < y)) (by simp; omega) h.1, ih h.2⟩

/-- The empty storage of reset is in canonical form. -/
theorem State.launch_storage_wf (cfg : Params) (ops : List Word) (q : List Byte) (idle : Bool)
    (sched : List AgentStep) : (State.launch cfg ops q idle sched).storage.wf = true := rfl

/-- Storage right after reset is in canonical form. -/
theorem State.reset_storage_wf : State.reset.storage.wf = true := rfl

/-- A cell below every listed index holds no value. -/
theorem Memory.read_eq_none (m : Memory) (a : Nat) (h : m.all (fun c => decide (a < c.1)) = true) :
    m.read a = none := by
  induction m with
  | nil => rfl
  | cons c m ih =>
    obtain ⟨x, u⟩ := c
    simp only [List.all_cons, Bool.and_eq_true, decide_eq_true_eq] at h
    simp [Memory.read, show x ≠ a by omega, ih h.2]

/-- In canonical form, equal contents are equal data. -/
theorem Memory.ext (m n : Memory) (hm : m.wf = true) (hn : n.wf = true) (h : ∀ a, m.read a = n.read a) : m = n := by
  induction m generalizing n with
  | nil =>
    cases n with
    | nil => rfl
    | cons d n => have := h d.1; simp [Memory.read] at this
  | cons c m ih =>
    cases n with
    | nil => have := h c.1; simp [Memory.read] at this
    | cons d n =>
      obtain ⟨x, u⟩ := c
      obtain ⟨y, v⟩ := d
      simp only [Memory.wf, Bool.and_eq_true] at hm hn
      have below : ∀ (l : Memory) (p q : Nat), l.all (fun c => decide (p < c.1)) = true → q ≤ p →
          l.read q = none := fun l p q hl hq => Memory.read_eq_none l q (by
        simp only [List.all_eq_true, decide_eq_true_eq] at hl ⊢
        exact fun z hz => by have := hl z hz; omega)
      have hxy : x = y := by
        have h1 := h x
        have h2 := h y
        rcases Nat.lt_trichotomy x y with hlt | heq | hgt
        · simp [Memory.read, show y ≠ x by omega, below n y x hn.1 (by omega)] at h1
        · exact heq
        · simp [Memory.read, show x ≠ y by omega, below m x y hm.1 (by omega)] at h2
      subst hxy
      have huv : u = v := by have := h x; simpa [Memory.read] using this
      subst huv
      congr 1
      refine ih n hm.2 hn.2 fun a => ?_
      by_cases hxa : x = a
      · subst hxa; rw [below m x x hm.1 (by omega), below n x x hn.1 (by omega)]
      · have := h a; simpa [Memory.read, hxa] using this

/-- A read after every byte is changed by `f`. -/
theorem Memory.read_map (m : Memory) (f : Byte → Byte) (a : Nat) :
    Memory.read (m.map fun c => (c.1, f c.2)) a = (m.read a).map f := by
  induction m with
  | nil => rfl
  | cons c m ih => obtain ⟨x, v⟩ := c; simp only [List.map_cons, Memory.read]; split <;> simp [ih]

/-- A write and a change of every byte by `f` commute. -/
theorem Memory.write_map (m : Memory) (f : Byte → Byte) (a : Nat) (b : Byte) :
    Memory.write (m.map fun c => (c.1, f c.2)) a (f b) = (m.write a b).map fun c => (c.1, f c.2) := by
  induction m with
  | nil => rfl
  | cons c m ih => obtain ⟨x, v⟩ := c; simp only [List.map_cons, Memory.write]; split <;> (try split) <;> simp [ih]

/-! ## The accesses of a state -/

/-- All that `MemRead` can do (R62). -/
theorem State.memRead_cases (s : State) (i : Nat) :
    (∃ v, s.memRead i = .ok v ∧ i < s.cap ∧ s.storage.read i = some v)
    ∨ (s.memRead i = .error .readNoValue ∧ i < s.cap ∧ s.storage.read i = none)
    ∨ (s.memRead i = .error .outsideStorage ∧ s.cap ≤ i) := by
  unfold State.memRead
  by_cases h : i < s.cap
  · cases hr : s.storage.read i <;> simp [h]
  · simp [h]; omega

/-- `MemRead` answers a byte exactly when the cell exists and holds it. -/
theorem State.memRead_ok (s : State) (i : Nat) (v : Byte) :
    s.memRead i = .ok v ↔ i < s.cap ∧ s.storage.read i = some v := by
  unfold State.memRead
  by_cases h : i < s.cap
  · cases hr : s.storage.read i <;> simp [h]
  · simp [h]

/-- All that `MemWrite` can do. -/
theorem State.memWrite_ok (s t : State) (i : Nat) (v : Byte) :
    s.memWrite i v = .ok t ↔ i < s.cap ∧ t = { s with storage := s.storage.write i v } := by
  unfold State.memWrite
  by_cases h : i < s.cap <;> simp [h, eq_comm]

/-- A push answers a state exactly when the index `w` is a cell, and then the byte and the index move together (R70). -/
theorem State.pushByte_ok (s t : State) (v : Byte) :
    s.pushByte v = .ok t ↔ s.w < s.cap ∧ t = { s with storage := s.storage.write s.w v, w := (s.w + 1) % s.cap } := by
  unfold State.pushByte State.memWrite
  by_cases h : s.w < s.cap <;> simp [h, eq_comm]

/-- A push at an index in range. -/
theorem State.pushByte_of_lt (s : State) (v : Byte) (h : s.w < s.cap) :
    s.pushByte v = .ok { s with storage := s.storage.write s.w v, w := (s.w + 1) % s.cap } :=
  (s.pushByte_ok _ v).2 ⟨h, rfl⟩

/-- All that a run of reads can answer: one byte per cell, each in range and written (R137). -/
theorem State.readRun_ok (s : State) (off len : Nat) (bs : List Byte) :
    s.readRun off len = .ok bs ↔
      bs.length = len ∧ ∀ i, i < len → off + i < s.cap ∧ s.storage.read (off + i) = bs[i]? := by
  induction len generalizing off bs with
  | zero => cases bs <;> simp [State.readRun]
  | succ len ih =>
    unfold State.readRun
    constructor
    · intro h
      cases hv : s.memRead off with
      | error f => simp [hv] at h
      | ok v =>
        cases hr : s.readRun (off + 1) len with
        | error f => simp [hv, hr] at h
        | ok vs =>
          simp only [hv, hr, Except.ok.injEq] at h
          subst h
          obtain ⟨hlen, hall⟩ := (ih _ _).1 hr
          obtain ⟨hlt, hrd⟩ := (s.memRead_ok off v).1 hv
          refine ⟨by simp [hlen], fun i hi => ?_⟩
          cases i with
          | zero => simpa using ⟨hlt, hrd⟩
          | succ i => have := hall i (by omega); simpa [Nat.add_assoc, Nat.add_comm 1] using this
    · rintro ⟨hlen, hall⟩
      cases bs with
      | nil => simp at hlen
      | cons v vs =>
        have h0 := hall 0 (by omega)
        simp only [Nat.add_zero, List.getElem?_cons_zero] at h0
        rw [(s.memRead_ok off v).2 h0, (ih (off + 1) vs).2 ⟨by simpa using hlen, fun i hi => by
          have := hall (i + 1) (by omega)
          simpa [Nat.add_assoc, Nat.add_comm 1] using this⟩]

/-- A run of written cells in range is read without a fault. -/
theorem State.readRun_exists (s : State) (off len : Nat)
    (h : ∀ i, i < len → off + i < s.cap ∧ (s.storage.read (off + i)).isSome = true) :
    ∃ bs, s.readRun off len = .ok bs := by
  induction len generalizing off with
  | zero => exact ⟨[], rfl⟩
  | succ len ih =>
    obtain ⟨hlt, hsome⟩ := h 0 (by omega)
    obtain ⟨v, hv⟩ := Option.isSome_iff_exists.1 hsome
    obtain ⟨vs, hvs⟩ := ih (off + 1) fun i hi => by
      have := h (i + 1) (by omega)
      simpa [Nat.add_assoc, Nat.add_comm 1] using this
    exact ⟨v :: vs, by simp only [State.readRun, (s.memRead_ok off v).2 ⟨hlt, hv⟩, hvs]⟩

/-- A run of reads depends on the configuration and on storage alone. -/
theorem State.readRun_congr (s t : State) (off len : Nat) (hc : t.cfg = s.cfg)
    (hm : ∀ i, i < len → t.storage.read (off + i) = s.storage.read (off + i)) :
    t.readRun off len = s.readRun off len := by
  induction len generalizing off with
  | zero => rfl
  | succ len ih =>
    have h0 : t.memRead off = s.memRead off := by
      have := hm 0 (by omega)
      simp only [Nat.add_zero] at this
      simp only [State.memRead, State.cap, hc, this]
    have ht := ih (off + 1) fun i hi => by
      have := hm (i + 1) (by omega)
      simpa [Nat.add_assoc, Nat.add_comm 1] using this
    simp only [State.readRun, h0, ht]

/-- A run of reads, one part after the other. -/
theorem State.readRun_take (s : State) (off len k : Nat) (bs : List Byte) (h : s.readRun off len = .ok bs)
    (hk : k ≤ len) : s.readRun off k = .ok (bs.take k) := by
  rw [State.readRun_ok] at h ⊢
  refine ⟨by simp [h.1, hk], fun i hi => ?_⟩
  have := h.2 i (by omega)
  simpa [List.getElem?_take, hi] using this

/-- `finish` answers a next state exactly for a state reached. -/
@[simp] theorem finish_next (r : Except Fault State) (t : State) : finish r = .next t ↔ r = .ok t := by
  cases r <;> simp [finish]

end Sys2Proof.Machine
end

