-- ==== Sys2Proof/Laws/Index.lean ====
section
/-! SUPPORT. Index arithmetic modulo `C`: each function without its remainder, for indices in range, so that linear
arithmetic closes what remains. -/

namespace Sys2Proof.Machine

/-- A capacity is a power of two, so it is positive. -/
theorem capacity_pos (p : Params) : 0 < p.capacity := Nat.two_pow_pos _

/-- A legal capacity is at least 2 (R3). -/
theorem capacity_ge_two (p : Params) (h : p.legal = true) : 2 ≤ p.capacity := by
  simp only [Params.legal, Bool.and_eq_true, decide_eq_true_eq] at h
  calc 2 = 2 ^ 1 := rfl
    _ ≤ 2 ^ p.k := Nat.pow_le_pow_right (by omega) (by omega)

/-- A legal capacity is at most 65536 (R3). -/
theorem capacity_le (p : Params) (h : p.legal = true) : p.capacity ≤ 65536 := by
  simp only [Params.legal, Bool.and_eq_true, decide_eq_true_eq] at h
  calc 2 ^ p.k ≤ 2 ^ 16 := Nat.pow_le_pow_right (by omega) (by omega)
    _ = 65536 := rfl

/-- Adding at most `C` to an index in range wraps at most once. -/
theorem add_mod_eq (c i n : Nat) (hi : i < c) (hn : n ≤ c) :
    (i + n) % c = if i + n < c then i + n else i + n - c := by
  split
  · exact Nat.mod_eq_of_lt ‹_›
  · rw [Nat.mod_eq_sub_mod (by omega), Nat.mod_eq_of_lt (by omega)]

/-- `dist` of indices in range. -/
theorem ringDist_eq (c a b : Nat) (ha : a < c) (hb : b < c) : ringDist c a b = if a ≤ b then b - a else c + b - a := by
  unfold ringDist
  rw [Nat.mod_eq_of_lt ha, add_mod_eq c b (c - a) hb (by omega)]
  split <;> split <;> omega

/-- `dist` is the mathematical remainder of `00_scope.md` §6 (the model writes it without negative numbers). -/
theorem ringDist_int (c a b : Nat) (hc : 0 < c) : (ringDist c a b : Int) = ((b : Int) - a) % c := by
  unfold ringDist
  have ha : a % c ≤ c := Nat.le_of_lt (Nat.mod_lt _ hc)
  rw [Int.natCast_mod, Int.natCast_add, Int.ofNat_sub ha, Int.natCast_mod]
  have : ((b : Int) + (c - (a : Int) % c)) = (b - a) + c * (1 + a / c) := by
    have := Int.emod_add_mul_ediv (a : Int) c
    rw [mul_add, mul_one]; omega
  rw [this, Int.add_mul_emod_self_left]

/-- `dist` is below the capacity. -/
theorem ringDist_lt (c a b : Nat) (hc : 0 < c) : ringDist c a b < c := Nat.mod_lt _ hc

/-- `dist` from an index to itself is 0. -/
theorem ringDist_self (c a : Nat) (ha : a < c) : ringDist c a a = 0 := by simp [ringDist_eq, ha]

/-- `dist` of indices in range, as a disjunction. -/
theorem ringDist_cases (c a b : Nat) (ha : a < c) (hb : b < c) :
    (a ≤ b ∧ ringDist c a b = b - a) ∨ (b < a ∧ ringDist c a b = c + b - a) := by
  rw [ringDist_eq c a b ha hb]
  split
  · exact .inl ⟨‹_›, rfl⟩
  · exact .inr ⟨by omega, rfl⟩

/-- Distances add up as long as they stay within one turn of the ring. -/
theorem ringDist_add (c a b d : Nat) (ha : a < c) (hb : b < c) (hd : d < c)
    (h : ringDist c a b + ringDist c b d < c) : ringDist c a d = ringDist c a b + ringDist c b d := by
  rcases ringDist_cases c a b ha hb with h1 | h1 <;> rcases ringDist_cases c b d hb hd with h2 | h2 <;>
    rcases ringDist_cases c a d ha hd with h3 | h3 <;> omega

/-- `n` cells on from `a` is at distance `n`. -/
theorem ringDist_advanced (c a n : Nat) (ha : a < c) (hn : n < c) : ringDist c a ((a + n) % c) = n := by
  have hlt : (a + n) % c < c := Nat.mod_lt _ (by omega)
  have hm := add_mod_eq c a n ha (by omega)
  rcases ringDist_cases c a _ ha hlt with h | h <;> split at hm <;> omega

/-- An index is its distance on from any other. -/
theorem index_at_ringDist (c a b : Nat) (ha : a < c) (hb : b < c) : (a + ringDist c a b) % c = b := by
  have hlt := ringDist_lt c a b (by omega)
  rw [add_mod_eq c a _ ha (by omega)]
  rcases ringDist_cases c a b ha hb with h | h <;> split <;> omega

/-- A nearer index is another index. -/
theorem index_ne_of_lt_ringDist (c a b i : Nat) (ha : a < c) (hb : b < c) (hi : i < ringDist c a b) :
    (a + i) % c ≠ b := by
  intro h
  have hlt := ringDist_lt c a b (by omega)
  have := ringDist_advanced c a i ha (by omega)
  rw [h] at this
  omega

/-- The unread bytes are those the consumer sees and those it does not see yet (R73). -/
theorem ringDist_split (c w r ws rs : Nat) (hw : w < c) (hr : r < c) (hws : ws < c)
    (hord : ringDist c rs r + ringDist c r ws + ringDist c ws w ≤ c - 1) :
    ringDist c r w = ringDist c r ws + ringDist c ws w := ringDist_add c r ws w hr hws hw (by omega)

/-- Advancing `w` in a ring that is not full: what it does to the distances of R73. -/
theorem ringDist_push (c w r ws rs : Nat) (hc : 2 ≤ c) (hw : w < c) (hr : r < c) (hws : ws < c) (hrs : rs < c)
    (hord : ringDist c rs r + ringDist c r ws + ringDist c ws w ≤ c - 1) (hf : (w + 1) % c ≠ rs) :
    ringDist c ws ((w + 1) % c) = ringDist c ws w + 1
      ∧ ringDist c rs r + ringDist c r ws + (ringDist c ws w + 1) ≤ c - 1
      ∧ ringDist c r ((w + 1) % c) = ringDist c r w + 1 := by
  have hw' : (w + 1) % c < c := Nat.mod_lt _ (by omega)
  have hone := ringDist_advanced c w 1 hw (by omega)
  have hrw := ringDist_split c w r ws rs hw hr hws hord
  have hall := ringDist_add c rs r w hrs hr hw (by omega)
  have hnf : ringDist c rs w ≠ c - 1 := by
    intro h
    have h2 := index_at_ringDist c rs w hrs hw
    rw [h] at h2
    apply hf
    rw [← h2, Nat.mod_add_mod, show rs + (c - 1) + 1 = rs + c by omega, Nat.add_mod_right, Nat.mod_eq_of_lt hrs]
  have h1 := ringDist_add c ws w _ hws hw hw' (by omega)
  have h2 := ringDist_add c r w _ hr hw hw' (by omega)
  omega

/-- Advancing `r` by no more than the consumer sees: what it does to the distances of R73. -/
theorem ringDist_advance (c w r ws rs n : Nat) (hw : w < c) (hr : r < c) (hws : ws < c) (hrs : rs < c)
    (hord : ringDist c rs r + ringDist c r ws + ringDist c ws w ≤ c - 1) (hn : n ≤ ringDist c r ws) :
    ringDist c rs ((r + n) % c) + ringDist c ((r + n) % c) ws + ringDist c ws w ≤ c - 1
      ∧ ringDist c ((r + n) % c) w + n = ringDist c r w := by
  have hr' : (r + n) % c < c := Nat.mod_lt _ (by omega)
  have hn' := ringDist_advanced c r n hr (by omega)
  have hrw := ringDist_split c w r ws rs hw hr hws hord
  have h1 := ringDist_add c rs r _ hrs hr hr' (by omega)
  have h2 : ringDist c ((r + n) % c) ws + n = ringDist c r ws := by
    have hm := add_mod_eq c r n hr (by omega)
    rcases ringDist_cases c r ws hr hws with h3 | h3 <;> rcases ringDist_cases c _ ws hr' hws with h4 | h4 <;>
      split at hm <;> omega
  have h3 := ringDist_add c _ ws w hr' hws hw (by omega)
  omega

/-- Copying `w` into `w_sync`: what it does to the distances of R73. -/
theorem ringDist_sync (c w r ws rs : Nat) (hw : w < c) (hr : r < c) (hws : ws < c)
    (hord : ringDist c rs r + ringDist c r ws + ringDist c ws w ≤ c - 1) :
    ringDist c rs r + ringDist c r w + ringDist c w w ≤ c - 1 ∧ ringDist c r ws ≤ ringDist c r w := by
  have := ringDist_split c w r ws rs hw hr hws hord
  rw [ringDist_self c w hw]
  omega

end Sys2Proof.Machine
end

