-- ==== Sys2Proof/Laws/Invariant.lean ====
section
/-! SUPPORT. What the invariant depends on, and what it gives: the unread cells hold values, the byte an outstanding
offer covers is unread, and `w` is never unread. -/

namespace Sys2Proof.Machine

/-- The record of an offer depends on the configuration, storage and the drain engine's registers alone. -/
theorem State.offerRecorded_congr (s t : State) (hcfg : t.cfg = s.cfg) (hstorage : t.storage = s.storage)
    (hdrn : t.drnState = s.drnState) (hoff : t.offerOff = s.offerOff) (hlen : t.offerLen = s.offerLen)
    (hoffers : t.offers = s.offers) (h : s.OfferRecorded) : t.OfferRecorded := by
  intro hd
  rw [hdrn] at hd
  rw [hoffers, hoff, hlen, State.readRun_congr s t _ _ hcfg (by intros; rw [hstorage])]
  exact h hd

/-- A state that agrees on the ring and the drain engine keeps the invariant, once the parts about the other registers
are shown. -/
theorem State.inv_congr (s t : State) (h : s.Inv) (hcfg : t.cfg = s.cfg) (hw : t.w = s.w) (hr : t.r = s.r)
    (hws : t.wSync = s.wSync) (hrs : t.rSync = s.rSync) (hstorage : t.storage = s.storage)
    (hdrn : t.drnState = s.drnState) (hoff : t.offerOff = s.offerOff) (hlen : t.offerLen = s.offerLen)
    (hflush : t.FlushOutside) (hfault : t.FaultRecord) (hrx : t.ReceiverBounded) (hport : t.PortInside) : t.Inv := by
  obtain ⟨i1, i2, i3, i4, i5, i6, -⟩ := h
  refine ⟨by rw [hcfg]; exact i1, ?_, ?_, ?_, ?_, ?_, hflush, hfault, hrx, hport⟩
  · unfold State.IndexBounds State.cap at *; rw [hcfg, hw, hr, hws, hrs]; exact i2
  · unfold State.RingOrdered State.cap at *; rw [hcfg, hw, hr, hws, hrs]; exact i3
  · unfold State.UnreadHeld State.pending State.cap at *; rw [hcfg, hw, hr, hstorage]; exact i4
  · unfold State.OfferInside State.pendingC State.cap at *; rw [hcfg, hr, hws, hdrn, hoff, hlen]; exact i5
  · unfold State.StorageCanonical State.cap at *; rw [hcfg, hstorage]; exact i6

/-- With no offer outstanding there is no record to ask for. -/
theorem State.offerRecorded_of_idle (s : State) (h : s.drnState = .idle) : s.OfferRecorded := fun hd => by
  rw [h] at hd; cases hd

/-- What the record of an outstanding offer is, once its cells have been read. -/
theorem State.offerRecorded_record (s : State) (bytes : List Byte) (h : s.OfferRecorded) (hd : s.drnState = .offer)
    (hb : s.readRun s.offerOff s.offerLen = .ok bytes) :
    s.offers.getLast? = some ⟨s.offerOff, s.offerLen, bytes⟩ := by
  have hr := h hd
  rw [hb] at hr
  obtain ⟨o, ho, he⟩ := Option.map_eq_some_iff.1 hr
  simp only [Except.toOption, Prod.mk.injEq, Option.some.injEq] at he
  obtain ⟨h1, h2, h3⟩ := he
  rw [ho, ← h1, ← h2, ← h3]

/-- The unread bytes are those the consumer sees and those between the copy and `w`. -/
theorem State.pending_eq (s : State) (h : s.Inv) : s.pending = s.pendingC + ringDist s.cap s.wSync s.w :=
  ringDist_split _ _ _ _ _ h.2.1.1 h.2.1.2.1 h.2.1.2.2.1 h.2.2.1

/-- No unread byte is in cell `w` (R74). -/
theorem State.unread_ne_w (s : State) (h : s.Inv) (i : Nat) (hi : i < s.pending) : (s.r + i) % s.cap ≠ s.w :=
  index_ne_of_lt_ringDist _ _ _ _ h.2.1.2.1 h.2.1.1 hi

/-- The cells of a contiguous run of bytes the consumer sees exist and hold values (R152). -/
theorem State.run_held (s : State) (h : s.Inv) (n : Nat) (hn : n ≤ s.pendingC) (hc : s.r + n ≤ s.cap) (i : Nat)
    (hi : i < n) : s.r + i < s.cap ∧ (s.storage.read (s.r + i)).isSome = true := by
  have hlt : s.r + i < s.cap := Nat.lt_of_lt_of_le (Nat.add_lt_add_left hi _) hc
  have hp := s.pending_eq h
  have := h.2.2.2.1 i (Nat.lt_of_lt_of_le hi (Nat.le_trans hn (hp ▸ Nat.le_add_right _ _)))
  rw [Nat.mod_eq_of_lt hlt] at this
  exact ⟨hlt, this⟩

end Sys2Proof.Machine
end

