-- ==== Sys2Proof/Laws/PerInstr.lean ====
section
/-! SUPPORT. Statements about every operation as syntax, one lemma per constructor. Family `OpcodeRow`: the encoding
carries the major opcode of the operation's row (`30_encoding.md` R89) and no bit outside its operand fields (R81). -/

namespace Sys2Proof.Laws

/-- The major opcode of an operation's row and the number its operand fields hold, bits 27:0 (R81, R89). -/
def rowOf : Instr → Nat × Nat
  | .avail => (0x1, 0)
  | .isfull => (0x2, 0)
  | .push data => (0x3, data.toNat)
  | .advrd n => (0x4, n.toNat)
  | .drainTick => (0x5, 0)
  | .drainDone => (0x5, 1)
  | .capture => (0x6, 0)
  | .setline dbits baud => (0x7, 2 ^ 24 * dbits.toNat + baud.toNat)
  | .getbaud => (0x8, 0)
  | .fence => (0x9, 0)
  | .rdreg regno => (0xA, regno.toNat)

/-- The encoding of `i` is its row's opcode above its operands. -/
def OpcodeRow.Statement (i : Instr) : Prop :=
  (encode i).toNat = 2 ^ 28 * (rowOf i).1 + (rowOf i).2 ∧ (rowOf i).2 < 2 ^ 28

theorem OpcodeRow.avail : OpcodeRow.Statement .avail := by simp [OpcodeRow.Statement, rowOf, encode]

theorem OpcodeRow.isfull : OpcodeRow.Statement .isfull := by simp [OpcodeRow.Statement, rowOf, encode]

theorem OpcodeRow.push (data : Byte) : OpcodeRow.Statement (.push data) := by
  have h := encode_push_toNat data
  have := data.isLt
  simp only [OpcodeRow.Statement, rowOf, h]
  omega

theorem OpcodeRow.advrd (n : BitVec 16) : OpcodeRow.Statement (.advrd n) := by
  have h := encode_advrd_toNat n
  have := n.isLt
  simp only [OpcodeRow.Statement, rowOf, h]
  omega

theorem OpcodeRow.drainTick : OpcodeRow.Statement .drainTick := by simp [OpcodeRow.Statement, rowOf, encode]

theorem OpcodeRow.drainDone : OpcodeRow.Statement .drainDone := by simp [OpcodeRow.Statement, rowOf, encode]

theorem OpcodeRow.capture : OpcodeRow.Statement .capture := by simp [OpcodeRow.Statement, rowOf, encode]

theorem OpcodeRow.setline (dbits : DataBits) (baud : Baud) : OpcodeRow.Statement (.setline dbits baud) := by
  have h := encode_setline_toNat dbits baud
  have := dbits.isLt
  have := baud.isLt
  simp only [OpcodeRow.Statement, rowOf, h]
  omega

theorem OpcodeRow.getbaud : OpcodeRow.Statement .getbaud := by simp [OpcodeRow.Statement, rowOf, encode]

theorem OpcodeRow.fence : OpcodeRow.Statement .fence := by simp [OpcodeRow.Statement, rowOf, encode]

theorem OpcodeRow.rdreg (regno : BitVec 4) : OpcodeRow.Statement (.rdreg regno) := by
  have h := encode_rdreg_toNat regno
  have := regno.isLt
  simp only [OpcodeRow.Statement, rowOf, h]
  omega

end Sys2Proof.Laws
end

