-- ==== Sys2Proof/Laws/Steps.lean ====
section
/-! SUPPORT. What a step can do, said once: `Change s e t` lists every next state of every agent's step with the guard
it is taken under, and `runStep_change` says that a step answers no other. -/

namespace Sys2Proof.Machine

/-! ## The conditions as propositions -/

@[simp] theorem State.capBusy_iff (s : State) : s.capBusy = true ↔ s.capState ≠ .idle := by simp [State.capBusy]

@[simp] theorem State.capBusy_eq_false (s : State) : s.capBusy = false ↔ s.capState = .idle := by simp [State.capBusy]

@[simp] theorem State.drnBusy_iff (s : State) : s.drnBusy = true ↔ s.drnState = .offer := by simp [State.drnBusy]

@[simp] theorem State.drnBusy_eq_false (s : State) : s.drnBusy = false ↔ s.drnState = .idle := by
  cases h : s.drnState <;> simp [State.drnBusy, h]

@[simp] theorem State.fullP_iff (s : State) : s.fullP = true ↔ (s.w + 1) % s.cap = s.rSync := by simp [State.fullP]

@[simp] theorem State.fullP_eq_false (s : State) : s.fullP = false ↔ (s.w + 1) % s.cap ≠ s.rSync := by
  simp [State.fullP]

@[simp] theorem State.emptyC_iff (s : State) : s.emptyC = true ↔ s.wSync = s.r := by simp [State.emptyC]

@[simp] theorem State.emptyC_eq_false (s : State) : s.emptyC = false ↔ s.wSync ≠ s.r := by simp [State.emptyC]

/-- R227. -/
theorem State.quiescent_iff (s : State) : s.quiescent = true ↔
    s.capState = .idle ∧ s.drnState = .idle ∧ s.reqCap = false ∧ s.reqDone = false ∧ s.reqTick = false
      ∧ s.wSync = s.w ∧ s.rSync = s.r := by
  simp [State.quiescent, and_assoc]

/-- R132. -/
theorem State.grantEnabled_iff (s : State) : s.grantEnabled = true ↔
    s.drnState = .idle ∧ (s.reqCap = true ∨ s.reqDone = true ∨ s.reqTick = true) := by
  simp [State.grantEnabled, or_assoc]

/-- R250. -/
theorem State.wiringEnabled_iff (s : State) : s.wiringEnabled = true ↔
    s.cfg.platformIrq = true ∧ (s.rxQueue ≠ [] ∨ s.rxIdle = true) ∧ s.capState = .idle := by
  simp [State.wiringEnabled, State.irq, and_assoc]

/-! ## Every next state -/

/-- The state after a push of `b` from `s`. -/
def State.pushed (s : State) (b : Byte) : State :=
  { s with storage := s.storage.write s.w b, w := (s.w + 1) % s.cap }

/-- Every next state `t` of the step `e` from `s`, with its guard. -/
inductive Change (s : State) : AgentStep → State → Prop where
  /-- The agent holds. -/
  | stay (e) : Change s e s
  /-- A word whose issue records a fault. -/
  | faultWord (c : FaultCause) : Change s .issue (s.raiseFault c).issued
  /-- AVAIL, ISFULL, GETBAUD, RDREG. -/
  | emitWord (v : Word) : Change s .issue (s.emit v).issued
  /-- FENCE. -/
  | fence : s.quiescent = true → Change s .issue s.issued
  /-- PUSH. -/
  | push (word : Word) (d : Byte) : s.fetchWord = some word → decode word = .ok (.push d) → s.capState = .idle →
      (s.w + 1) % s.cap ≠ s.rSync → s.w < s.cap → Change s .issue (s.pushed d).issued
  /-- ADVRD. -/
  | advance (word : Word) (n : BitVec 16) : s.fetchWord = some word → decode word = .ok (.advrd n) →
      s.drnState = .idle → n.toNat ≤ s.pendingC → Change s .issue (s.advanceRead n.toNat).issued
  /-- DRAIN.TICK. -/
  | tick : Change s .issue { s with reqTick := true }.issued
  /-- DRAIN.DONE. -/
  | done : Change s .issue { s with reqDone := true }.issued
  /-- CAPTURE. -/
  | capture : s.capState = .idle → Change s .issue s.episodeStart.issued
  /-- SETLINE. -/
  | setline (dbits : DataBits) (baud : Baud) : Change s .issue
      ({ s with lineBaud := baud, lineDataBits := dbits, lineSet := true }.forwardLine baud dbits).issued
  /-- The wiring's start. -/
  | wiring : s.capState = .idle → s.cfg.platformIrq = true → Change s .irqStart s.episodeStart
  /-- Intake on an empty queue. -/
  | intakeEnd : s.capState = .loop → s.rxQueue = [] → Change s .intake { s with capState := .flush }
  /-- Intake on a full ring. -/
  | intakeDrop (b : Byte) (rest : List Byte) : s.capState = .loop → s.rxQueue = b :: rest →
      (s.w + 1) % s.cap = s.rSync →
      Change s .intake { s with rxQueue := rest, flushNeeded := true, capState := .flush }
  /-- Intake of one byte. -/
  | intakePush (b : Byte) (rest : List Byte) : s.capState = .loop → s.rxQueue = b :: rest →
      (s.w + 1) % s.cap ≠ s.rSync → s.w < s.cap → Change s .intake { s.pushed b with rxQueue := rest }
  /-- Flush with a request. -/
  | flushPost : s.capState = .flush → s.flushNeeded = true →
      Change s .flush { s with reqCap := true, wSync := s.w, flushNeeded := false, capState := .idle }
  /-- Flush without a request. -/
  | flushEnd : s.capState = .flush → s.flushNeeded = false → Change s .flush { s with capState := .idle }
  /-- A grant on an empty ring. -/
  | grantEmpty : s.grantEnabled = true → s.wSync = s.r → Change s .grant s.clearGranted
  /-- A grant that offers. -/
  | grantOffer (bytes : List Byte) : s.grantEnabled = true → s.wSync ≠ s.r →
      s.readRun s.r s.offerLength = .ok bytes →
      Change s .grant (s.clearGranted.makeOffer s.r s.offerLength bytes)
  /-- An answer above the offer. -/
  | answerOver (k : Word) : s.drnState = .offer → s.offerLen < k.toNat →
      Change s (.answer k) { s.raiseFault .transportOveraccept with drnState := .idle }
  /-- A full answer. -/
  | answerFull (k : Word) (bytes : List Byte) : s.drnState = .offer → k.toNat = s.offerLen →
      s.readRun s.offerOff s.offerLen = .ok bytes → Change s (.answer k) ((s.deliver bytes).advanceRead s.offerLen)
  /-- A short answer. -/
  | answerShort (k : Word) (bytes : List Byte) : s.drnState = .offer → k.toNat < s.offerLen →
      s.readRun s.offerOff k.toNat = .ok bytes → Change s (.answer k) (s.deliver bytes)
  | writeSync : Change s .writeSync { s with wSync := s.w }
  | readSync : Change s .readSync { s with rSync := s.r }
  /-- A byte arrives. -/
  | rxQueue (b : Byte) (queue : List Byte) (draws : Nat) :
      queue.length ≤ max 1 (max s.rxQueue.length s.cfg.rxDepth) →
      Change s (.rxArrive b) { s with rxQueue := queue, draws := draws }
  | rxIdle : Change s .rxIdle { s with rxIdle := true }
  | reset : Change s .reset { State.launch s.cfg s.ops s.rxQueue s.rxIdle s.sched with
      opPos := s.opPos, results := s.results, rxConfig := s.rxConfig, offers := s.offers
      delivered := s.delivered, draws := s.draws }

/-- What issuing one operation can do. -/
theorem exec_change (s t : State) (word : Word) (i : Instr) (hf : s.fetchWord = some word)
    (hd : decode word = .ok i) (h : exec i s = .next t) : Change s .issue t := by
  cases i with
  | avail => simp only [exec, execAvail, Host.Outcome.next.injEq] at h; subst h; exact .emitWord _
  | isfull => simp only [exec, execIsfull, Host.Outcome.next.injEq] at h; subst h; exact .emitWord _
  | push d =>
    simp only [exec, execPush, State.held, State.capBusy_iff, State.fullP_iff] at h
    split at h
    · simp only [Host.Outcome.next.injEq] at h; subst h; exact .stay _
    · split at h
      · simp only [Host.Outcome.next.injEq] at h; subst h; exact .faultWord _
      · rename_i hcap hfull
        rw [finish_next] at h
        cases hp : s.pushByte d with
        | error f => simp [hp, Except.map] at h
        | ok u =>
          simp only [hp, Except.map, Except.ok.injEq] at h
          obtain ⟨hw, rfl⟩ := (s.pushByte_ok u d).1 hp
          subst h
          exact .push word d hf hd (by simpa using hcap) hfull hw
  | advrd n =>
    simp only [exec, execAdvrd, State.held, State.drnBusy_iff] at h
    split at h
    · simp only [Host.Outcome.next.injEq] at h; subst h; exact .stay _
    · rename_i hdrn
      split at h <;> (rw [Host.Outcome.next.injEq] at h; subst h)
      · exact .faultWord _
      · exact .advance word n hf hd (by rw [← State.drnBusy_eq_false]; simpa [State.drnBusy] using hdrn) (Nat.le_of_not_lt ‹_›)
  | drainTick => simp only [exec, execDrainTick, Host.Outcome.next.injEq] at h; subst h; exact .tick
  | drainDone => simp only [exec, execDrainDone, Host.Outcome.next.injEq] at h; subst h; exact .done
  | capture =>
    simp only [exec, execCapture, State.held, State.capBusy_iff] at h
    split at h
    · simp only [Host.Outcome.next.injEq] at h; subst h; exact .stay _
    · rename_i hcap
      simp only [Host.Outcome.next.injEq] at h; subst h; exact .capture (by simpa using hcap)
  | setline dbits baud =>
    simp only [exec, execSetline, Host.Outcome.next.injEq] at h; subst h; exact .setline dbits baud
  | getbaud =>
    simp only [exec, execGetbaud] at h
    split at h <;> (simp only [Host.Outcome.next.injEq] at h; subst h)
    · exact .emitWord _
    · exact .faultWord _
  | fence =>
    simp only [exec, execFence, State.held] at h
    cases hq : s.quiescent <;> simp only [hq, Bool.not_true, Bool.not_false, if_true, Bool.false_eq_true, if_false,
      Host.Outcome.next.injEq] at h <;> subst h
    · exact .stay _
    · exact .fence hq
  | rdreg regno =>
    simp only [exec, execRdreg] at h
    split at h <;> (simp only [Host.Outcome.next.injEq] at h; subst h)
    · exact .emitWord _
    · exact .faultWord _

/-- A queue after an overrun is no longer than before. -/
theorem overrunQueue_length (queue : List Byte) (b : Byte) (keeps : Bool) :
    (overrunQueue queue b keeps).length ≤ max queue.length 1 := by
  cases keeps <;> simp [overrunQueue]; omega

/-- Every step of every agent is one of the changes. -/
theorem runStep_change (e : AgentStep) (s t : State) (h : runStep e s = .next t) :
    Change s e t := by
  cases e with
  | issue =>
    simp only [runStep, issueStep] at h
    split at h
    · simp only [Host.Outcome.next.injEq] at h; subst h; exact .stay _
    · rename_i word hf
      split at h
      · simp only [Host.Outcome.next.injEq] at h; subst h; exact .faultWord _
      · rename_i i hd; exact exec_change s t word i hf hd h
  | intake =>
    simp only [runStep, intakeStep] at h
    split at h
    · rename_i hcap
      split at h
      · rename_i hq; simp only [Host.Outcome.next.injEq] at h; subst h; exact .intakeEnd hcap hq
      · rename_i b rest hq
        simp only [State.fullP_iff] at h
        split at h
        · rename_i hfull
          simp only [Host.Outcome.next.injEq] at h; subst h; exact .intakeDrop b rest hcap hq hfull
        · rename_i hfull
          rw [finish_next, State.pushByte_ok] at h
          obtain ⟨hw, rfl⟩ := h
          exact .intakePush b rest hcap hq hfull hw
    · simp only [Host.Outcome.next.injEq] at h; subst h; exact .stay _
  | flush =>
    simp only [runStep, flushStep] at h
    split at h
    · rename_i hcap
      simp only [Host.Outcome.next.injEq] at h
      cases hn : s.flushNeeded with
      | true => simp only [hn, if_true] at h; subst h; exact .flushPost hcap hn
      | false =>
        have := Change.flushEnd hcap hn
        simp only [hn, Bool.false_eq_true, if_false] at h
        subst h
        rwa [← hn]
    · simp only [Host.Outcome.next.injEq] at h; subst h; exact .stay _
  | grant =>
    simp only [runStep, grantStep, State.emptyC_iff] at h
    split at h
    · rename_i hen
      split at h
      · rename_i hempty; simp only [Host.Outcome.next.injEq] at h; subst h; exact .grantEmpty hen hempty
      · rename_i hne
        split at h
        · cases h
        · rename_i bytes hb; simp only [Host.Outcome.next.injEq] at h; subst h; exact .grantOffer bytes hen hne hb
    · simp only [Host.Outcome.next.injEq] at h; subst h; exact .stay _
  | writeSync => simp only [runStep, writeSyncStep, Host.Outcome.next.injEq] at h; subst h; exact .writeSync
  | readSync => simp only [runStep, readSyncStep, Host.Outcome.next.injEq] at h; subst h; exact .readSync
  | answer k =>
    simp only [runStep, answerStep, State.drnBusy_iff] at h
    split at h
    · rename_i hoff
      split at h
      · rename_i hover; simp only [Host.Outcome.next.injEq] at h; subst h; exact .answerOver k hoff hover
      · rename_i hle
        split at h
        · cases h
        · rename_i bytes hb
          split at h <;> (simp only [Host.Outcome.next.injEq] at h; subst h)
          · rename_i heq; exact .answerFull k bytes hoff heq (heq ▸ hb)
          · rename_i hne; exact .answerShort k bytes hoff (by omega) hb
    · simp only [Host.Outcome.next.injEq] at h; subst h; exact .stay _
  | rxArrive b =>
    simp only [runStep, rxArriveStep] at h
    split at h <;> (simp only [Host.Outcome.next.injEq] at h; subst h)
    · exact .rxQueue b (s.rxQueue ++ [b]) s.draws (by simp; omega)
    · unfold State.overrun
      have := fun keeps => overrunQueue_length s.rxQueue b keeps
      split
      · exact .rxQueue b _ s.draws (by have := this true; omega)
      · exact .rxQueue b _ s.draws (by have := this false; omega)
      · exact .rxQueue b _ _ (by have := this (Config.drawKeepsOld s.draws); omega)
  | rxIdle => simp only [runStep, rxIdleStep, Host.Outcome.next.injEq] at h; subst h; exact .rxIdle
  | irqStart =>
    simp only [runStep, wiringStep] at h
    split at h <;> (simp only [Host.Outcome.next.injEq] at h; subst h)
    · rename_i hen; have := (s.wiringEnabled_iff).1 hen; exact .wiring this.2.2 this.1
    · exact .stay _
  | reset => simp only [runStep, resetStep, Host.Outcome.next.injEq] at h; subst h; exact .reset

/-- The control port changes something only while its position names a word (R220). -/
theorem issue_inside (s t : State) (h : runStep .issue s = .next t) : t = s ∨ s.opPos < s.ops.length := by
  simp only [runStep, issueStep] at h
  split at h
  · simp only [Host.Outcome.next.injEq] at h; exact .inl h.symm
  · rename_i word hf
    exact .inr (List.getElem?_eq_some_iff.1 hf).1

/-- A step of the machine is a step of the agent the schedule names, in a legal configuration. -/
theorem step_next (s t : State) (h : step s = .next t) :
    s.cfg.legal = true ∧ runStep s.nextStep s.popStep = .next t := by
  unfold step at h
  split at h
  · exact ⟨‹_›, h⟩
  · cases h

end Sys2Proof.Machine
end

