-- ==== Sys2Proof/Tests/Slice0.lean ====
section
/-! SUPPORT. Tests: the terms the checks refuse, every word's decoding as `95_test_vectors.md` §2.1 writes it out, one
step of each operation and agent from the vectors of §1 and §2, and for every obligation with hypotheses a state and
operands that meet them. -/

namespace Sys2Proof.Tests

open Sys2Proof Sys2Proof.Machine

/-! ## Helpers -/

/-- A ring of capacity `2 ^ k` with the indices `(w, r, w_sync, r_sync)` and the cells given. -/
def ring (k w r wSync rSync : Nat) (cells : Memory) : State :=
  { State.launch ⟨k, 64, 8, .unfixed, false⟩ [] [] false [] with
    w := w, r := r, wSync := wSync, rSync := rSync, storage := cells }

/-- Cells 0 to 6 of a ring of 8, the bytes of scenario 1.1. -/
def sevenCells : Memory := [(0, 0x41), (1, 0x42), (2, 0x43), (3, 0x44), (4, 0x45), (5, 0x46), (6, 0x47)]

/-- Scenario 1.2: `(2, 6, 2, 6)`, four bytes that wrap. -/
def wrapped : State := ring 3 2 6 2 6 [(0, 0x33), (1, 0x34), (6, 0x31), (7, 0x32)]

/-- A full ring of 8, `(7, 0, 7, 0)`. -/
def full : State := ring 3 7 0 7 0 sevenCells

/-- The full ring with its offer `(0, 7)` outstanding. -/
def offered : State :=
  { full with
    drnState := .offer, offerLen := 7, offers := [⟨0, 7, [0x41, 0x42, 0x43, 0x44, 0x45, 0x46, 0x47]⟩] }

/-- The reset state with the words given as the program. -/
def program (ops : List Word) : State := { State.reset with ops := ops }

/-- What a next state shows. -/
def shown {α : Type} (f : State → α) : Host.Outcome State Fault Refusal → Option α
  | .next s => some (f s)
  | .fault _ => none
  | .refused _ => none

/-- The four indices of a state. -/
def indices (s : State) : Nat × Nat × Nat × Nat := (s.w, s.r, s.wSync, s.rSync)

/-! ## The checks on terms refuse what is ill formed -/

theorem test_wf_rdreg_refused : (Instr.rdreg 7).wf = false ∧ (Instr.rdreg 15).wf = false := by decide
theorem test_wf_rdreg_accepted : (Instr.rdreg 0).wf = true ∧ (Instr.rdreg 6).wf = true := by decide
theorem test_legal_k_low : Params.legal ⟨0, 64, 8, .unfixed, false⟩ = false := by decide
theorem test_legal_k_high : Params.legal ⟨17, 64, 8, .unfixed, false⟩ = false := by decide
theorem test_legal_chunk_low : Params.legal ⟨3, 0, 8, .unfixed, false⟩ = false := by decide
theorem test_legal_chunk_high : Params.legal ⟨3, 2 ^ 24, 8, .unfixed, false⟩ = false := by decide
theorem test_legal_depth_low : Params.legal ⟨3, 64, 0, .unfixed, false⟩ = false := by decide
theorem test_legal_bounds :
    Params.legal ⟨1, 1, 1, .dropNew, true⟩ = true ∧ Params.legal ⟨16, 2 ^ 24 - 1, 1, .dropOldest, true⟩ = true := by
  decide

/-! ## Every operation's word (`95_test_vectors.md` §2.1) -/

theorem test_decode_avail : decode 0x10000000 = .ok .avail := by decide
theorem test_decode_avail_reserved : decode 0x10000001 = .error .reservedField := by decide
theorem test_decode_isfull : decode 0x20000000 = .ok .isfull := by decide
theorem test_decode_push : decode 0x300000FF = .ok (.push 0xFF) := by decide
theorem test_decode_push_reserved : decode 0x30000100 = .error .reservedField := by decide
theorem test_decode_advrd : decode 0x4000FFFF = .ok (.advrd 65535) := by decide
theorem test_decode_advrd_reserved : decode 0x40010000 = .error .reservedField := by decide
theorem test_decode_drain_tick : decode 0x50000000 = .ok .drainTick := by decide
theorem test_decode_drain_done : decode 0x50000001 = .ok .drainDone := by decide
theorem test_decode_drain_reserved : decode 0x50000002 = .error .reservedField := by decide
theorem test_decode_capture : decode 0x60000000 = .ok .capture := by decide
theorem test_decode_capture_reserved : decode 0x6F000000 = .error .reservedField := by decide
theorem test_decode_setline : decode 0x7801C200 = .ok (.setline 8 115200) := by decide
theorem test_decode_setline_ones : decode 0x7FFFFFFF = .ok (.setline 15 16777215) := by decide
theorem test_decode_getbaud : decode 0x80000000 = .ok .getbaud := by decide
theorem test_decode_fence : decode 0x90000000 = .ok .fence := by decide
theorem test_decode_fence_reserved : decode 0x90000010 = .error .reservedField := by decide
theorem test_decode_rdreg : decode 0xA0000004 = .ok (.rdreg 4) := by decide
theorem test_decode_rdreg_register :
    decode 0xA0000007 = .error .reservedRegister ∧ decode 0xA000000F = .error .reservedRegister := by decide
theorem test_decode_rdreg_reserved : decode 0xA0000010 = .error .reservedField := by decide
theorem test_decode_opcodes :
    decode 0 = .error .reservedOpcode ∧ decode 0xB0000000 = .error .reservedOpcode
      ∧ decode 0xFFFFFFFF = .error .reservedOpcode := by decide

/-- The encoder's words, from the same table. -/
theorem test_encode_words :
    [Instr.avail, .isfull, .push 0x41, .advrd 4, .drainTick, .drainDone, .capture, .setline 8 115200, .getbaud, .fence,
      .rdreg 6].map encode
    = [0x10000000, 0x20000000, 0x30000041, 0x40000004, 0x50000000, 0x50000001, 0x60000000, 0x7801C200, 0x80000000,
        0x90000000, 0xA0000006] := by decide

/-- The byte order of R94. -/
theorem test_bytes_of_word : bytesOfWord 0x7801C200 = [0x00, 0xC2, 0x01, 0x78] := by decide
theorem test_decode_bytes :
    decodeBytes [0x00, 0xC2, 0x01, 0x78, 0xAA] = .ok (.setline 8 115200, [0xAA]) := by decide
theorem test_decode_bytes_truncated : decodeBytes [0x00, 0xC2, 0x01] = .error .truncated := by decide
theorem test_decode_table_word :
    decodeTableWord 32 0x4000FFFF = some (.advrd 65535) ∧ decodeTableWord 32 0xA0000007 = none := by decide

/-- A placed word is fetched and run by the very next step. -/
theorem test_with_fetch_word :
    shown (fun s => (s.storage, s.w, s.opPos)) (step (State.reset.withFetchWord 32 0x30000041))
      = some ([(0, 0x41)], 1, 1) := by decide

/-! ## Assembly (`30_encoding.md` R95, R96) -/

theorem test_assemble_setline :
    assembleText ("SETLINE 115200, 8 ; line\nRDREG CONFIG\nPUSHS 0x01, 255".toList)
      = .ok [0x7801C200, 0xA0000004, 0x30000001, 0x300000FF] := by decide
theorem test_assemble_range :
    assembleText ("PUSH 256".toList) = .error .operandRange ∧ assembleText ("RDREG 7".toList) = .error .operandRange := by
  decide

/-! ## Ring buffer operations (§2.2 to §2.5) -/

theorem test_avail_wrapped : shown State.results (exec .avail wrapped) = some [2] := by decide
theorem test_avail_wrapped_at_zero : shown State.results (exec .avail (ring 3 0 3 0 3 [])) = some [5] := by decide
theorem test_isfull_stale : shown State.results (exec .isfull (ring 3 7 2 7 0 [])) = some [1] := by decide
theorem test_isfull_one_free : shown State.results (exec .isfull (ring 3 6 0 6 0 [])) = some [0] := by decide
theorem test_push_wraps :
    shown (fun s => (s.storage, indices s)) (exec (.push 0x41) (ring 3 7 3 7 3 [])) = some ([(7, 0x41)], 0, 3, 7, 3) := by
  decide
theorem test_push_full :
    shown (fun s => (s.storage, indices s, s.faultCause)) (exec (.push 0x55) (ring 3 2 3 2 3 [(2, 9)]))
      = some ([(2, 9)], (2, 3, 2, 3), 2) := by decide
theorem test_advrd_wraps : shown State.r (exec (.advrd 4) wrapped) = some 2 := by decide
theorem test_advrd_overrun :
    shown (fun s => (s.r, s.faultCause)) (exec (.advrd 5) wrapped) = some (6, 3) := by decide

/-! ## Drain engine (§2.6) -/

theorem test_drain_tick_under_offer :
    shown (fun s => (s.reqTick, s.reqDone, s.drnState)) (exec .drainTick offered) = some (true, false, .offer) := by
  decide
theorem test_drain_done : shown (fun s => (s.reqTick, s.reqDone)) (exec .drainDone full) = some (false, true) := by decide
theorem test_grant_wrapped :
    shown State.offers (runStep .grant { wrapped with reqTick := true }) = some [⟨6, 2, [0x31, 0x32]⟩] := by decide
theorem test_grant_empty :
    shown (fun s => (s.offers, s.reqCap, s.reqDone, s.drnState))
      (runStep .grant { ring 3 5 5 5 5 [] with reqCap := true, reqDone := true })
      = some ([], false, true, .idle) := by decide
theorem test_answer_short :
    shown (fun s => (s.delivered, s.r, s.drnState)) (runStep (.answer 2) offered)
      = some ([0x41, 0x42], 0, .idle) := by decide
theorem test_answer_overaccept :
    shown (fun s => (s.delivered, s.r, s.faultCause)) (runStep (.answer 8) offered) = some ([], 0, 4) := by decide

/-! ## Capture (§2.7) -/

theorem test_capture_samples_idle :
    shown (fun s => (s.flushNeeded, s.rxIdle, s.capState)) (exec .capture { State.reset with rxIdle := true })
      = some (true, false, .loop) := by decide
theorem test_capture_full_drops_one :
    (takeSteps [.intake, .flush] { full with capState := .loop, rxQueue := [0x99, 0x9A] }).map
        (fun s => (s.rxQueue, s.reqCap, s.w, s.capState))
      = some ([0x9A], true, 7, .idle) := by decide

/-! ## Link configuration (§2.8) -/

theorem test_setline :
    shown (fun s => (s.lineBaud, s.lineDataBits, s.rxConfig)) (exec (.setline 8 115200) State.reset)
      = some (115200, 8, some (115200, 8)) := by decide
theorem test_getbaud_unset :
    shown (fun s => (s.results, s.faultCause, s.opPos)) (exec .getbaud State.reset) = some ([], 5, 1) := by decide
theorem test_getbaud_set :
    shown State.results (exec .getbaud { State.reset with lineSet := true, lineBaud := 153600 })
      = some [Config.baudReadback 153600] := rfl

/-! ## The control port (§2.9) -/

theorem test_rdreg_status : shown State.results (exec (.rdreg 0) offered) = some [0x0000000A] := by decide
theorem test_rdreg_config :
    shown State.results (exec (.rdreg 4) { State.reset with cfg := ⟨16, 2 ^ 24 - 1, 8, .unfixed, false⟩ })
      = some [0xFFFFFF10] := by decide
theorem test_fence_quiescent : shown State.opPos (exec .fence State.reset) = some 1 := by decide
theorem test_fence_held : shown State.opPos (exec .fence (ring 3 5 2 3 2 [])) = some 0 := by decide
theorem test_illegal_word :
    shown (fun s => (s.fault, s.faultCause, s.opPos)) (runStep .issue (program [0])) = some (true, 1, 1) := by decide

/-- Reset under an offer (§2.10). -/
theorem test_reset :
    shown (fun s => (indices s, s.storage, s.drnState, s.rxQueue))
      (runStep .reset { offered with reqTick := true, fault := true, faultCause := 3, rxQueue := [0xAA] })
      = some ((0, 0, 0, 0), [], .idle, [0xAA]) := by decide
theorem test_reset_clears_fault :
    shown (fun s => (s.reqTick, s.fault, s.faultCause))
      (runStep .reset { offered with reqTick := true, fault := true, faultCause := 3 })
      = some (false, false, 0) := by decide

/-! ## Witnesses: states and operands that meet the hypotheses of each obligation that has some -/

theorem reset_inv : State.reset.Inv :=
  ⟨by decide, by decide, by decide, by decide, by decide, by decide, by decide, by decide, by decide, by decide⟩

theorem wrapped_inv : wrapped.Inv :=
  ⟨by decide, by decide, by decide, by decide, by decide, by decide, by decide, by decide, by decide, by decide⟩

theorem full_inv : full.Inv :=
  ⟨by decide, by decide, by decide, by decide, by decide, by decide, by decide, by decide, by decide, by decide⟩

theorem offered_inv : offered.Inv :=
  ⟨by decide, by decide, by decide, by decide, by decide, by decide, by decide, by decide, by decide, by decide⟩

/-- `wrapped` with a tick and a transport completion pending: R145's state. -/
def wrappedRequested : State := { wrapped with reqDone := true, reqTick := true }

theorem wrappedRequested_inv : wrappedRequested.Inv :=
  ⟨by decide, by decide, by decide, by decide, by decide, by decide, by decide, by decide, by decide, by decide⟩

/-- `offered` with a tick pending: R150's state. -/
def offeredRequested : State := { offered with reqTick := true }

theorem offeredRequested_inv : offeredRequested.Inv :=
  ⟨by decide, by decide, by decide, by decide, by decide, by decide, by decide, by decide, by decide, by decide⟩

/-- A launch with the offer `(0, 7)` outstanding and `offers` empty (R222, R282, log entry 20), and a program of one
AVAIL. -/
def launchedUnderOffer : State := { offered with offers := [], ops := [0x10000000] }

theorem launchedUnderOffer_inv : launchedUnderOffer.Inv :=
  ⟨by decide, by decide, by decide, by decide, by decide, by decide, by decide, by decide, by decide, by decide⟩
/-- R141: the answer delivers the bytes of the cells, whether or not the run recorded the offer. -/
theorem test_answer_to_unrecorded_offer :
    shown (fun s => (s.delivered, s.r, s.offers)) (runStep (.answer 7) launchedUnderOffer)
      = some ([0x41, 0x42, 0x43, 0x44, 0x45, 0x46, 0x47], 7, []) := by decide

/-- The full ring with two bytes waiting at the receiver: R182's state. -/
def fullWaiting : State := { full with rxQueue := [0x99, 0x9A], rxIdle := true }

theorem fullWaiting_inv : fullWaiting.Inv :=
  ⟨by decide, by decide, by decide, by decide, by decide, by decide, by decide, by decide, by decide, by decide⟩

theorem witness_DecodeOfEncode : (Instr.rdreg 6).wf = true ∧ (Instr.setline 15 16777215).wf = true := by decide
theorem witness_EncodeOfDecode : decode 0xA0000006 = .ok (.rdreg 6) := by decide
theorem witness_OpcodeMapSelectsRows :
    ((0x0FFFFFFF : Word).extractLsb' 28 4).toNat = 0 ∧ 0xB ≤ ((0xB0000000 : Word).extractLsb' 28 4).toNat
      ∧ 0xB ≤ ((0xFFFFFFFF : Word).extractLsb' 28 4).toNat := by decide
theorem witness_WordsTravelLittleEndian :
    decode 0x7801C200 = .ok (.setline 8 115200) ∧ decode 0xA0000007 = .error .reservedRegister := by decide
theorem witness_AssembledWordsAreLegal :
    assembleWords [.pushs 0 [255], .rdreg (.number 6)] = .ok [0x30000000, 0x300000FF, 0xA0000006] := by decide
theorem witness_PseudoOperationsExpand : ∀ v, v ∈ [0, 255] → v < 256 := by decide

theorem witness_StepRunsDecodedInstruction :
    let s := { program [0x30000041] with sched := [.issue] }
    s.cfg.legal = true ∧ s.nextStep = .issue ∧ s.ops[s.opPos]? = some 0x30000041
      ∧ decode 0x30000041 = .ok (.push 0x41) := by decide
theorem witness_StepRunsDecodedInstruction_scheduled :
    (let s := { State.reset with sched := [.readSync, .issue] };
      s.sched = .readSync :: [.issue]) := rfl
theorem witness_StepRunsDecodedInstruction_drawn : State.reset.sched = [] := rfl

/-- The bounds of R3, low and high, and one value below and one above each. -/
theorem witness_OnlyIllegalConfigurationsAreRefused :
    let inside (p : Params) : Prop :=
      1 ≤ p.k ∧ p.k ≤ 16 ∧ 1 ≤ p.maxChunk ∧ p.maxChunk ≤ 2 ^ 24 - 1 ∧ 1 ≤ p.rxDepth
    inside ⟨1, 1, 1, .unfixed, false⟩ ∧ inside ⟨16, 2 ^ 24 - 1, 1, .unfixed, false⟩
      ∧ ¬ inside ⟨0, 1, 1, .unfixed, false⟩ ∧ ¬ inside ⟨17, 1, 1, .unfixed, false⟩
      ∧ ¬ inside ⟨1, 0, 1, .unfixed, false⟩ ∧ ¬ inside ⟨1, 2 ^ 24, 1, .unfixed, false⟩
      ∧ ¬ inside ⟨1, 1, 0, .unfixed, false⟩ := by decide

theorem witness_NoStepChangesTheConfiguration :
    (∃ t, exec .drainTick State.reset = .next t) ∧ ∃ t, runStep .rxIdle State.reset = .next t := ⟨⟨_, rfl⟩, ⟨_, rfl⟩⟩

/-- Both indices at the ends of their range, either side of the wrap and at `w_sync = 0`. -/
theorem witness_AvailAndPendingDifferOnlyWhenWrapped :
    let low := ring 3 0 7 0 7 []
    let high := ring 3 7 0 7 0 []
    (low.r < 2 ^ low.cfg.k ∧ low.wSync < 2 ^ low.cfg.k) ∧ (high.r < 2 ^ high.cfg.k ∧ high.wSync < 2 ^ high.cfg.k)
      ∧ (wrapped.wSync < wrapped.r ∧ wrapped.wSync ≠ 0) := by decide

/-- A full ring, an empty one, and the largest and the smallest number of pushes. -/
theorem witness_AvailCountsPushedBytes :
    (full.r ≤ full.wSync ∧ full.wSync < 2 ^ full.cfg.k) ∧ (State.reset.r ≤ State.reset.wSync)
      ∧ (exampleParams.legal = true ∧ [1, 2, 3, 4, 5, 6, 7].length ≤ 2 ^ exampleParams.k - 1)
      ∧ ([] : List Byte).length ≤ 2 ^ exampleParams.k - 1 := by decide

/-- The largest and the smallest result. -/
theorem witness_AvailEmitsFirstRun :
    (full.cfg.legal = true ∧ full.r < 2 ^ full.cfg.k ∧ full.wSync < 2 ^ full.cfg.k)
      ∧ (let s := ring 3 0 7 7 7 []; s.cfg.legal = true ∧ s.r < 2 ^ s.cfg.k ∧ s.wSync < 2 ^ s.cfg.k) := by decide

theorem witness_IsfullEmitsProducerView :
    (full.Inv ∧ (full.w + 1) % 2 ^ full.cfg.k = full.r) ∧ State.reset.Inv ∧ State.reset.w = State.reset.rSync :=
  ⟨⟨full_inv, by decide⟩, reset_inv, rfl⟩

theorem witness_PushWritesOneCell :
    { State.reset with capState := .loop }.capState ≠ .idle
      ∧ (full.capState = .idle ∧ (full.w + 1) % 2 ^ full.cfg.k = full.rSync)
      ∧ (let s := ring 3 7 3 7 3 [];
        s.capState = .idle ∧ (s.w + 1) % 2 ^ s.cfg.k ≠ s.rSync ∧ s.w < 2 ^ s.cfg.k) := by decide

/-- Held; one byte too many; the largest count that fits; no byte. -/
theorem witness_AdvrdAdvancesReadIndex :
    offered.drnState = .offer
      ∧ (wrapped.drnState = .idle ∧ ringDist (2 ^ wrapped.cfg.k) wrapped.r wrapped.wSync < (5 : BitVec 16).toNat)
      ∧ (4 : BitVec 16).toNat ≤ ringDist (2 ^ wrapped.cfg.k) wrapped.r wrapped.wSync
      ∧ (let s := ring 3 7 7 7 7 [];
        s.drnState = .idle ∧ s.r < 2 ^ s.cfg.k) := by decide

theorem witness_CaptureStartsAnEpisode :
    { State.reset with capState := .flush }.capState ≠ .idle ∧ State.reset.capState = .idle := by decide
theorem witness_GetbaudReadsBack :
    State.reset.lineSet = false ∧ { State.reset with lineSet := true }.lineSet = true := by decide
theorem witness_FenceWaitsForQuiescence :
    (let s := State.reset;
      s.capState = .idle ∧ s.drnState = .idle ∧ s.reqCap = false ∧ s.reqDone = false ∧ s.reqTick = false
        ∧ s.wSync = s.w ∧ s.rSync = s.r)
    ∧ (let s := ring 3 5 2 3 2 [];
      ¬ (s.capState = .idle ∧ s.drnState = .idle ∧ s.reqCap = false ∧ s.reqDone = false ∧ s.reqTick = false
        ∧ s.wSync = s.w ∧ s.rSync = s.r)) := by decide
theorem witness_RdregReadsIndices :
    let s := ring 3 5 2 3 1 []
    ((1 : BitVec 4) = 1 ∧ 5 = s.w) ∧ ((2 : BitVec 4) = 2 ∧ 2 = s.r) ∧ ((5 : BitVec 4) = 5 ∧ 3 = s.wSync)
      ∧ ((6 : BitVec 4) = 6 ∧ 1 = s.rSync) := by decide
theorem witness_RdregReadsStatus :
    Params.legal ⟨1, 1, 1, .dropNew, true⟩ = true ∧ Params.legal ⟨16, 2 ^ 24 - 1, 1, .unfixed, false⟩ = true := by decide
theorem witness_RdregReadsCauseAndConfig :
    7 ≤ (7 : BitVec 4).toNat ∧ 7 ≤ (15 : BitVec 4).toNat := by decide
theorem witness_HeldWordsWaitOthersAdvance :
    ({ State.reset with capState := .loop }.held (.push 0) = true ∧ offered.held (.advrd 0) = true
      ∧ { State.reset with capState := .flush }.held .capture = true ∧ offered.held .fence = true)
    ∧ ((ring 3 7 3 7 3 []).held (.push 0) = false ∧ (ring 3 7 3 7 3 []).w < 2 ^ (ring 3 7 3 7 3 []).cfg.k) := by
  decide
theorem witness_IllegalWordsRecordIllegalOp :
    (program [0xA0000007]).ops[(program [0xA0000007]).opPos]? = some 0xA0000007 ∧ ∀ i, decode 0xA0000007 ≠ .ok i :=
  ⟨rfl, fun i h => by rw [show decode 0xA0000007 = .error .reservedRegister by decide] at h; cases h⟩
/-- A word that decodes and records a fault of its own: PUSH on a full ring. -/
theorem witness_IllegalWordsRecordIllegalOp_decoded :
    let s := { full with ops := [0x30000055] }
    s.ops[s.opPos]? = some 0x30000055 ∧ decode 0x30000055 = .ok (.push 0x55) ∧ s.faultCause ≠ 1
      ∧ shown (fun t => t.faultCause) (runStep .issue s) = some 2 := by decide

theorem witness_GrantConsumesOneRequest :
    State.reset.enabled .grant = false
      ∧ (let s := { ring 3 5 5 5 5 [] with reqDone := true, reqTick := true };
        s.enabled .grant = true ∧ s.wSync = s.r) := by decide
theorem witness_GrantOffersTheContiguousRun :
    wrappedRequested.Inv ∧ wrappedRequested.enabled .grant = true ∧ wrappedRequested.wSync ≠ wrappedRequested.r :=
  ⟨wrappedRequested_inv, by decide, by decide⟩
theorem witness_OffersAreBounded : wrappedRequested.Inv ∧ ∃ t, runStep .grant wrappedRequested = .next t :=
  ⟨wrappedRequested_inv, ⟨_, rfl⟩⟩
/-- No offer; one byte too many; the full answer; a short one; none at all; with the offer's record and without. -/
theorem witness_TransportAnswerCommitsOrRetries :
    full.drnState = .idle ∧ (offered.drnState = .offer ∧ offered.offerLen < (8 : Word).toNat)
      ∧ (offered.Inv ∧ (7 : Word).toNat ≤ offered.offerLen ∧ (6 : Word).toNat ≤ offered.offerLen
        ∧ (0 : Word).toNat ≤ offered.offerLen ∧ offered.OfferRecorded)
      ∧ launchedUnderOffer.Inv ∧ launchedUnderOffer.drnState = .offer
      ∧ (7 : Word).toNat ≤ launchedUnderOffer.offerLen ∧ ¬ launchedUnderOffer.OfferRecorded :=
  ⟨rfl, ⟨rfl, by decide⟩, ⟨offered_inv, by decide, by decide, by decide, by decide⟩, launchedUnderOffer_inv, rfl,
    by decide, by decide⟩
theorem witness_IntakePopsOneByte :
    State.reset.capState ≠ .loop
      ∧ (let s := { State.reset with capState := .loop };
        s.capState = .loop ∧ s.rxQueue = [])
      ∧ (let s := { full with capState := .loop, rxQueue := [0x99, 0x9A] };
        s.capState = .loop ∧ s.rxQueue = 0x99 :: [0x9A] ∧ (s.w + 1) % 2 ^ s.cfg.k = s.rSync)
      ∧ (let s := { ring 3 7 3 7 3 [] with capState := .loop, rxQueue := [0x77] };
        s.capState = .loop ∧ s.rxQueue = 0x77 :: [] ∧ (s.w + 1) % 2 ^ s.cfg.k ≠ s.rSync ∧ s.w < 2 ^ s.cfg.k) := by
  decide
theorem witness_FlushPostsAndEndsTheEpisode :
    State.reset.capState ≠ .flush
      ∧ (let s := { State.reset with capState := .flush, flushNeeded := true };
        s.capState = .flush ∧ s.flushNeeded = true)
      ∧ (let s := { State.reset with capState := .flush };
        s.capState = .flush ∧ s.flushNeeded = false) := by decide
theorem witness_WholeEpisodes :
    (State.reset.Inv ∧ State.reset.capState = .idle ∧ State.reset.rxQueue = [] ∧ State.reset.rxIdle = false)
      ∧ fullWaiting.Inv ∧ fullWaiting.capState = .idle ∧ fullWaiting.rxQueue = 0x99 :: [0x9A]
      ∧ (fullWaiting.w + 1) % 2 ^ fullWaiting.cfg.k = fullWaiting.rSync :=
  ⟨⟨reset_inv, rfl, rfl, rfl⟩, fullWaiting_inv, rfl, rfl, by decide⟩
/-- The last place in a queue of two, and a queue of two that is full, under each policy. -/
theorem witness_ReceiverQueuesBytes :
    let s (p : RxOverrun) (q : List Byte) : State := State.launch ⟨3, 64, 2, p, false⟩ [] q false []
    ((s .unfixed [1]).rxQueue.length < (s .unfixed [1]).cfg.rxDepth)
      ∧ ((s .dropNew [1, 2]).cfg.rxDepth ≤ (s .dropNew [1, 2]).rxQueue.length
        ∧ (s .dropNew [1, 2]).cfg.rxOverrun = .dropNew)
      ∧ ((s .dropOldest [1, 2]).cfg.rxDepth ≤ (s .dropOldest [1, 2]).rxQueue.length
        ∧ (s .dropOldest [1, 2]).cfg.rxOverrun = .dropOldest)
      ∧ ((s .unfixed [1, 2]).cfg.rxDepth ≤ (s .unfixed [1, 2]).rxQueue.length
        ∧ (s .unfixed [1, 2]).cfg.rxOverrun = .unfixed) := by decide
theorem witness_WiringStartsEpisodes :
    (State.launch ⟨3, 64, 8, .unfixed, true⟩ [] [] true []).enabled .irqStart = true
      ∧ State.reset.enabled .irqStart = false := by decide

/-- A receiver queue at its depth, in program mode. -/
theorem witness_InvariantHoldsAtReset :
    let cfg : Params := ⟨3, 64, 2, .unfixed, false⟩
    cfg.legal = true ∧ ([1, 2] : List Byte).length ≤ cfg.rxDepth ∧ cfg.platformIrq = false := by decide
theorem witness_EveryStepKeepsTheInvariant :
    let s := { offered with ops := [0x10000000], sched := [.issue] }
    s.Inv ∧ s.OfferRecorded ∧ ∃ t, step s = .next t ∧ t.drnState = .offer :=
  ⟨⟨by decide, by decide, by decide, by decide, by decide, by decide, by decide, by decide, by decide, by decide⟩,
    by decide, ⟨_, rfl, rfl⟩⟩
/-- The same without the record. -/
theorem witness_EveryStepKeepsTheInvariant_unrecorded :
    let s := { launchedUnderOffer with sched := [.answer 7] }
    s.Inv ∧ ¬ s.OfferRecorded ∧ ∃ t, step s = .next t :=
  ⟨⟨by decide, by decide, by decide, by decide, by decide, by decide, by decide, by decide, by decide, by decide⟩,
    by decide, ⟨_, rfl⟩⟩
theorem witness_NoStepStopsTheMachine : offered.Inv := offered_inv
theorem witness_UnreadBytesAreNeverOverwritten :
    (wrapped.Inv ∧ AgentStep.readSync ≠ .reset ∧ ∃ t, runStep .readSync wrapped = .next t)
      ∧ 3 < ringDist (2 ^ wrapped.cfg.k) wrapped.r wrapped.w ∧ (0 : Nat) ≠ wrapped.w
      ∧ (wrapped.storage.read 7).isSome = true :=
  ⟨⟨wrapped_inv, by decide, ⟨_, rfl⟩⟩, by decide, by decide, by decide⟩
/-- A step that changes `w`, one that changes `r`, and one for each copy. -/
theorem witness_OnlyTheOwnersWriteTheRing :
    shown (fun t => decide (t.w ≠ 0)) (runStep .issue (program [0x30000041])) = some true
      ∧ shown (fun t => decide (t.r ≠ offered.r)) (runStep (.answer 7) offered) = some true
      ∧ shown (fun t => decide (t.wSync ≠ 3)) (runStep .writeSync (ring 3 5 2 3 1 [])) = some true
      ∧ shown (fun t => decide (t.rSync ≠ 1)) (runStep .readSync (ring 3 5 2 3 1 [])) = some true := by decide
/-- Each cause raised once, from a state without a fault. -/
theorem witness_FaultsHaveOneRaiser :
    let raised (e : AgentStep) (s : State) : Option (Bool × Bool) := shown (fun t => (s.fault, t.fault)) (runStep e s)
    raised .issue (program [0]) = some (false, true)
      ∧ raised .issue { full with ops := [0x30000055] } = some (false, true)
      ∧ raised .issue (program [0x40000001]) = some (false, true)
      ∧ raised .issue (program [0x80000000]) = some (false, true)
      ∧ raised (.answer 8) offered = some (false, true) := by decide
theorem witness_FaultRecordIsSticky :
    AgentStep.issue ≠ .reset
      ∧ (let s := { program [0x80000000] with fault := true, faultCause := 1 };
        s.fault = true ∧ s.faultCause ≠ 0 ∧ ∃ t, runStep .issue s = .next t) :=
  ⟨by decide, rfl, by decide, ⟨_, rfl⟩⟩
theorem witness_FaultingOperationsArePrecise :
    full.fault = false ∧ shown State.fault (exec (.push 0x55) full) = some true := by decide
theorem witness_TheRingIsAFifo :
    (offered.Inv ∧ ∃ t, runStep (.answer 7) offered = .next t)
      ∧ offered.fifoMove (.answer 7) = .commit 7 ∧ offered.fifoMove (.answer 2) = .offerTaken 2 :=
  ⟨⟨offered_inv, ⟨_, rfl⟩⟩, by decide, by decide⟩
theorem witness_WrappedDataNeedsTwoTransactions :
    wrappedRequested.Inv
      ∧ (let s := wrappedRequested;
        s.drnState = .idle
          ∧ (s.reqCap = true ∧ s.reqDone = true ∨ s.reqCap = true ∧ s.reqTick = true
            ∨ s.reqDone = true ∧ s.reqTick = true)
          ∧ 0 < s.wSync ∧ s.wSync < s.r
          ∧ 2 ^ s.cfg.k - s.r ≤ s.cfg.maxChunk ∧ s.wSync ≤ s.cfg.maxChunk) :=
  ⟨wrappedRequested_inv, by decide⟩
/-- The same with the other two pairs of requests. -/
theorem witness_WrappedDataNeedsTwoTransactions_pairs :
    { wrapped with reqCap := true, reqDone := true }.Inv ∧ { wrapped with reqCap := true, reqTick := true }.Inv :=
  ⟨⟨by decide, by decide, by decide, by decide, by decide, by decide, by decide, by decide, by decide, by decide⟩, ⟨by decide, by decide, by decide, by decide, by decide, by decide, by decide, by decide,
    by decide, by decide⟩⟩
theorem witness_ShortAnswersAreOfferedAgain :
    offeredRequested.Inv ∧ offeredRequested.drnState = .offer ∧ 0 < (6 : Word).toNat
      ∧ (6 : Word).toNat < offeredRequested.offerLen
      ∧ (offeredRequested.reqCap = true ∨ offeredRequested.reqDone = true ∨ offeredRequested.reqTick = true) :=
  ⟨offeredRequested_inv, by decide, by decide, by decide, by decide⟩
theorem witness_PayloadIsOpaque : AgentStep.intake ≠ .issue := by decide
theorem witness_RunsEndWhereNoAgentHasAStep :
    State.reset.PortInside ∧ State.reset.cfg.platformIrq = false := by decide

/-- A state of a program run with work left: an offer outstanding, a request pending, the fence waiting. -/
def running : State := { offeredRequested with ops := [0x90000000] }

theorem witness_ProgramRunsAreBounded : running.Inv ∧ running.cfg.platformIrq = false :=
  ⟨⟨by decide, by decide, by decide, by decide, by decide, by decide, by decide, by decide, by decide, by decide⟩, rfl⟩
/-- The same for a launch with an offer outstanding that the run has not recorded. -/
theorem witness_ProgramRunsAreBounded_unrecorded :
    launchedUnderOffer.LaunchesRun ∧ ¬ launchedUnderOffer.OfferRecorded :=
  ⟨⟨launchedUnderOffer_inv, rfl, rfl, rfl, rfl, rfl⟩, by decide⟩

/-- The launch state of a program of one AVAIL, and the end of its run. -/
def oneAvail : State := program [0x10000000]
def oneAvailEnd : State := { oneAvail with results := [0], opPos := 1 }

/-- The run of that program: the control port issues its one word and then has no step. -/
theorem witness_FairProgramRunsEnd :
    let states (n : Nat) : State := if n = 0 then oneAvail else oneAvailEnd
    (states 0).Inv ∧ (states 0).cfg.platformIrq = false ∧ IsRun states (fun _ => .issue)
      ∧ (∀ n, AgentStep.inProgramRun ((fun _ => .issue : Nat → AgentStep) n) = true)
      ∧ WeaklyFair states (fun _ => .issue) := by
  refine ⟨⟨by decide, by decide, by decide, by decide, by decide, by decide, by decide, by decide, by decide,
    by decide⟩, rfl, ?_, fun _ => rfl, ?_⟩
  · intro n
    cases n with
    | zero => rfl
    | succ n => rfl
  · intro e he n hall
    have h := hall (n + 1) (by omega)
    change oneAvailEnd.enabled e = true at h
    cases e <;> first | (cases he; done) | cases h

/-- The end of the run of `launchedUnderOffer`: the offer answered in full, the copy of `r` caught up, AVAIL issued. -/
def underOfferAnswered : State :=
  { launchedUnderOffer with drnState := .idle, r := 7, delivered := [0x41, 0x42, 0x43, 0x44, 0x45, 0x46, 0x47] }
def underOfferEnd : State := { underOfferAnswered with rSync := 7, results := [0], opPos := 1 }

/-- A fair run from the launch with the unrecorded offer. -/
theorem witness_FairProgramRunsEnd_unrecorded :
    let states : Nat → State
      | 0 => launchedUnderOffer
      | 1 => underOfferAnswered
      | 2 => { underOfferAnswered with rSync := 7 }
      | _ + 3 => underOfferEnd
    let who : Nat → AgentStep
      | 0 => .answer 7
      | 1 => .readSync
      | _ + 2 => .issue
    (states 0).LaunchesRun ∧ IsRun states who ∧ (∀ n, AgentStep.inProgramRun (who n) = true) ∧ WeaklyFair states who := by
  refine ⟨⟨launchedUnderOffer_inv, rfl, rfl, rfl, rfl, rfl⟩, ?_, ?_, ?_⟩
  · rintro (_ | _ | _ | n) <;> rfl
  · rintro (_ | _ | n) <;> rfl
  · intro e he n hall
    have h := hall (n + 3) (by omega)
    change underOfferEnd.enabled e = true at h
    cases e <;> first | (cases he; done) | cases h

/-- A program of one illegal word: its run ends at once, faulted, in no final state (R8, R244). -/
def oneIllegal : State := program [0]
def oneIllegalEnd : State := { oneIllegal with opPos := 1, fault := true, faultCause := 1 }

theorem test_faulted_end_is_not_final :
    takeSteps [.issue] oneIllegal = some oneIllegalEnd ∧ oneIllegalEnd.ended ∧ ¬ oneIllegalEnd.final := by decide

/-- A faulted run that goes on; a final state. -/
theorem witness_FaultedStatesAreNeverFinal :
    (AgentStep.reset ∉ [AgentStep.rxIdle] ∧ oneIllegalEnd.fault = true
        ∧ takeSteps [.rxIdle] oneIllegalEnd = some { oneIllegalEnd with rxIdle := true })
      ∧ oneAvailEnd.final := by decide

end Sys2Proof.Tests
end

section
/-! SUPPORT. Which outcomes an operation and a step can answer (`00_scope.md` R3, R5, R8): a next state of the same
configuration, or a model fault; never a refusal. The refusal of an illegal configuration is `step`'s own. -/

namespace Sys2Proof.Machine

/-- An outcome inside a block built for `cfg`: a next state of that configuration (R5), or a model fault. A refusal is
no such outcome. -/
inductive AnswersIn (cfg : Params) : Host.Outcome State Fault Refusal → Prop where
  | next (t : State) : t.cfg = cfg → AnswersIn cfg (.next t)
  | fault (why : Fault) : AnswersIn cfg (.fault why)

/-- The next state of such an outcome has the configuration. -/
theorem AnswersIn.cfg_eq {cfg : Params} {t : State} (h : AnswersIn cfg (.next t)) : t.cfg = cfg := by
  cases h with
  | next _ ht => exact ht

/-- Such an outcome is no refusal. -/
theorem AnswersIn.ne_refused {cfg : Params} {o : Host.Outcome State Fault Refusal} (h : AnswersIn cfg o)
    (why : Refusal) : o ≠ .refused why := by
  rintro rfl
  cases h

/-- The end of a storage access answers inside the configuration when each state it can reach has it. -/
theorem finish_answersIn (cfg : Params) (r : Except Fault State) (h : ∀ t, r = .ok t → t.cfg = cfg) :
    AnswersIn cfg (finish r) := by
  cases r with
  | error why => exact .fault why
  | ok t => exact .next t (h t rfl)

/-- A push keeps the configuration. -/
theorem State.pushByte_cfg (s t : State) (b : Byte) (h : s.pushByte b = .ok t) : t.cfg = s.cfg := by
  obtain ⟨-, rfl⟩ := (s.pushByte_ok t b).1 h
  rfl

/-- An overrun keeps the configuration. -/
@[simp] theorem State.overrun_cfg (s : State) (b : Byte) : (s.overrun b).cfg = s.cfg := by
  unfold State.overrun
  split <;> rfl

theorem execPush_answersIn (d : Byte) (s : State) : AnswersIn s.cfg (execPush d s) := by
  unfold execPush
  split
  · exact .next _ rfl
  · split
    · exact .next _ rfl
    · refine finish_answersIn _ _ fun t ht => ?_
      cases hp : s.pushByte d with
      | error why => rw [hp] at ht; cases ht
      | ok u => rw [hp] at ht; cases ht; exact s.pushByte_cfg u d hp

theorem execRdreg_answersIn (regno : BitVec 4) (s : State) : AnswersIn s.cfg (execRdreg regno s) := by
  unfold execRdreg
  split <;> exact .next _ rfl

/-- Every operation answers a next state of the same configuration, or a model fault. -/
theorem exec_answersIn (i : Instr) (s : State) : AnswersIn s.cfg (exec i s) := by
  cases i with
  | avail => exact .next _ rfl
  | isfull => exact .next _ rfl
  | push d => exact execPush_answersIn d s
  | advrd n =>
    simp only [exec, execAdvrd]
    split
    · exact .next _ rfl
    · split <;> exact .next _ rfl
  | drainTick => exact .next _ rfl
  | drainDone => exact .next _ rfl
  | capture => simp only [exec, execCapture]; split <;> exact .next _ rfl
  | setline dbits baud => exact .next _ rfl
  | getbaud => simp only [exec, execGetbaud]; split <;> exact .next _ rfl
  | fence => simp only [exec, execFence]; split <;> exact .next _ rfl
  | rdreg regno => exact execRdreg_answersIn regno s

theorem issueStep_answersIn (s : State) : AnswersIn s.cfg (issueStep s) := by
  unfold issueStep
  split
  · exact .next _ rfl
  · split
    · exact .next _ rfl
    · exact exec_answersIn _ s

theorem intakeStep_answersIn (s : State) : AnswersIn s.cfg (intakeStep s) := by
  unfold intakeStep
  split
  · split
    · exact .next _ rfl
    · dsimp only
      split
      · exact .next _ rfl
      · exact finish_answersIn _ _ fun t ht => (State.pushByte_cfg _ t _ ht :)
  · exact .next _ rfl

theorem flushStep_answersIn (s : State) : AnswersIn s.cfg (flushStep s) := by
  unfold flushStep
  split
  · refine .next _ ?_
    dsimp only
    split <;> rfl
  · exact .next _ rfl

theorem grantStep_answersIn (s : State) : AnswersIn s.cfg (grantStep s) := by
  unfold grantStep
  split
  · split
    · exact .next _ s.clearGranted_cfg
    · split
      · exact .fault _
      · exact .next _ s.clearGranted_cfg
  · exact .next _ rfl

theorem answerStep_answersIn (k : Word) (s : State) : AnswersIn s.cfg (answerStep k s) := by
  unfold answerStep
  split
  · split
    · exact .next _ rfl
    · split
      · exact .fault _
      · split <;> exact .next _ rfl
  · exact .next _ rfl

/-- Every agent's step answers a next state of the same configuration, or a model fault. -/
theorem runStep_answersIn (e : AgentStep) (s : State) : AnswersIn s.cfg (runStep e s) := by
  cases e with
  | issue => exact issueStep_answersIn s
  | intake => exact intakeStep_answersIn s
  | flush => exact flushStep_answersIn s
  | grant => exact grantStep_answersIn s
  | writeSync => exact .next _ rfl
  | readSync => exact .next _ rfl
  | answer k => exact answerStep_answersIn k s
  | rxArrive b =>
    simp only [runStep, rxArriveStep]
    split
    · exact .next _ rfl
    · exact .next _ (s.overrun_cfg b)
  | rxIdle => exact .next _ rfl
  | irqStart => simp only [runStep, wiringStep]; split <;> exact .next _ rfl
  | reset => exact .next _ rfl

/-- The legal range of R3, bound by bound. -/
theorem legal_iff (p : Params) : p.legal = true ↔
    1 ≤ p.k ∧ p.k ≤ 16 ∧ 1 ≤ p.maxChunk ∧ p.maxChunk ≤ 2 ^ 24 - 1 ∧ 1 ≤ p.rxDepth := by
  simp [Params.legal, and_assoc]

/-- In a legal configuration a step is the chosen agent's. -/
theorem step_of_legal (s : State) (h : s.cfg.legal = true) : step s = runStep s.nextStep s.popStep := if_pos h

/-- A step refuses every other configuration. -/
theorem step_of_not_legal (s : State) (h : ¬ s.cfg.legal = true) : step s = .refused .illegalConfig := if_neg h

end Sys2Proof.Machine

open Sys2Proof Sys2Proof.Machine

/-- Settles O9: no agent's step refuses, so `step`'s own test of the range is the only refusal. -/
theorem onlyIllegalConfigurationsAreRefused : Obligations.OnlyIllegalConfigurationsAreRefused := by
  intro s
  rw [← legal_iff s.cfg]
  constructor
  · intro hlegal why
    rw [step_of_legal s hlegal]
    exact (runStep_answersIn s.nextStep s.popStep).ne_refused why
  · exact step_of_not_legal s

/-- Settles O10, by the outcomes every operation and every agent's step can answer. -/
theorem noStepChangesTheConfiguration : Obligations.NoStepChangesTheConfiguration :=
  ⟨fun i s _ h => (h ▸ exec_answersIn i s).cfg_eq, fun e s _ h => (h ▸ runStep_answersIn e s).cfg_eq⟩
end

section
/-! SUPPORT. A change of every payload byte (`00_scope.md` R2) commutes with every shared operation of the model, and
leaves every condition the rules test alone; so it commutes with every operation and every other agent's step. -/

namespace Sys2Proof.Machine

variable (f : Byte → Byte) (s : State)

/-! ## The shared operations -/

/-- A read after the change: the byte changed, or the same fault. -/
theorem State.memRead_mapPayload (i : Nat) : (s.mapPayload f).memRead i = (s.memRead i).map f := by
  have hread : (s.mapPayload f).storage.read i = (s.storage.read i).map f := Memory.read_map s.storage f i
  have hcap : (s.mapPayload f).cap = s.cap := rfl
  simp only [State.memRead, hread, hcap]
  split
  · cases s.storage.read i <;> rfl
  · rfl

/-- A run of reads after the change: the bytes changed, or the same fault. -/
theorem State.readRun_mapPayload (off len : Nat) :
    (s.mapPayload f).readRun off len = (s.readRun off len).map (List.map f) := by
  induction len generalizing off with
  | zero => rfl
  | succ len ih =>
    simp only [State.readRun, s.memRead_mapPayload, ih]
    cases s.memRead off with
    | error why => rfl
    | ok v => cases s.readRun (off + 1) len <;> rfl

/-- A push where `w` names no cell. -/
theorem State.pushByte_of_not_lt (b : Byte) (h : ¬ s.w < s.cap) : s.pushByte b = .error .outsideStorage := by
  simp [State.pushByte, State.memWrite, h]

/-- A push of the changed byte. -/
theorem State.pushByte_mapPayload (b : Byte) :
    (s.mapPayload f).pushByte (f b) = (s.pushByte b).map (State.mapPayload f) := by
  by_cases hw : s.w < s.cap
  · have hwrite : (s.mapPayload f).storage.write s.w (f b) = (s.storage.write s.w b).map fun c => (c.1, f c.2) :=
      Memory.write_map s.storage f s.w b
    rw [s.pushByte_of_lt b hw, (s.mapPayload f).pushByte_of_lt (f b) hw]
    exact congrArg (fun m => Except.ok { s.mapPayload f with storage := m, w := (s.w + 1) % s.cap }) hwrite
  · rw [s.pushByte_of_not_lt b hw, (s.mapPayload f).pushByte_of_not_lt (f b) hw]
    rfl

theorem State.clearGranted_mapPayload : (s.mapPayload f).clearGranted = s.clearGranted.mapPayload f := by
  simp only [State.clearGranted, apply_ite (State.mapPayload f)]
  rfl

theorem State.makeOffer_mapPayload (off len : Nat) (bytes : List Byte) :
    (s.mapPayload f).makeOffer off len (bytes.map f) = (s.makeOffer off len bytes).mapPayload f := by
  simp [State.makeOffer, State.mapPayload]

theorem State.deliver_mapPayload (bytes : List Byte) :
    (s.mapPayload f).deliver (bytes.map f) = (s.deliver bytes).mapPayload f := by
  simp [State.deliver, State.mapPayload]

theorem overrunQueue_map (queue : List Byte) (b : Byte) (keeps : Bool) :
    overrunQueue (queue.map f) (f b) keeps = (overrunQueue queue b keeps).map f := by
  cases keeps <;> simp [overrunQueue]

/-- What an overrun drops does not depend on the bytes (R186). -/
theorem State.overrun_mapPayload (b : Byte) : (s.mapPayload f).overrun (f b) = (s.overrun b).mapPayload f := by
  have hqueue (keeps : Bool) :
      overrunQueue (s.mapPayload f).rxQueue (f b) keeps = (overrunQueue s.rxQueue b keeps).map f :=
    overrunQueue_map f s.rxQueue b keeps
  have hcfg : (s.mapPayload f).cfg = s.cfg := rfl
  simp only [State.overrun, hqueue, hcfg]
  cases s.cfg.rxOverrun <;> rfl

/-- The interrupt condition asks only whether the queue is empty (R250). -/
theorem State.wiringEnabled_mapPayload : (s.mapPayload f).wiringEnabled = s.wiringEnabled := by
  have hempty : (s.mapPayload f).rxQueue.isEmpty = s.rxQueue.isEmpty := List.isEmpty_map
  simp only [State.wiringEnabled, State.irq, hempty]
  rfl

/-! ## Outcomes -/

/-- The end of a storage access. -/
theorem finish_mapPayload (r : Except Fault State) : finish (r.map (State.mapPayload f)) = mapOutcome f (finish r) := by
  cases r <;> rfl

/-- Branch by branch: an outcome chosen by a test `c` that no payload byte decides, so that the changed state takes
the same branch. -/
theorem ite_mapOutcome {f : Byte → Byte} {c : Prop} [Decidable c] {x y x' y' : Host.Outcome State Fault Refusal}
    (hx : x' = mapOutcome f x) (hy : y' = mapOutcome f y) :
    (if c then x' else y') = mapOutcome f (if c then x else y) := by
  rw [hx, hy, apply_ite (mapOutcome f)]

/-! ## The operations and the agents' steps -/

theorem execPush_mapPayload (d : Byte) : execPush (f d) (s.mapPayload f) = mapOutcome f (execPush d s) := by
  have hissued (r : Except Fault State) :
      (r.map (State.mapPayload f)).map State.issued = (r.map State.issued).map (State.mapPayload f) := by
    cases r <;> rfl
  have hpush : finish (((s.mapPayload f).pushByte (f d)).map State.issued)
      = mapOutcome f (finish ((s.pushByte d).map State.issued)) := by
    rw [State.pushByte_mapPayload, hissued, finish_mapPayload]
  exact ite_mapOutcome rfl (ite_mapOutcome rfl hpush)

theorem execRdreg_mapPayload (regno : BitVec 4) :
    execRdreg regno (s.mapPayload f) = mapOutcome f (execRdreg regno s) := by
  unfold execRdreg
  cases regOfNumber regno with
  | none => rfl
  | some reg => cases reg <;> rfl

/-- Every operation commutes with the change. -/
theorem exec_mapPayload (i : Instr) : exec (Instr.mapPayload f i) (s.mapPayload f) = mapOutcome f (exec i s) := by
  cases i with
  | avail => rfl
  | isfull => rfl
  | push d => exact execPush_mapPayload f s d
  | advrd n => exact ite_mapOutcome rfl (ite_mapOutcome rfl rfl)
  | drainTick => rfl
  | drainDone => rfl
  | capture => exact ite_mapOutcome rfl rfl
  | setline dbits baud => rfl
  | getbaud => exact ite_mapOutcome rfl rfl
  | fence => exact ite_mapOutcome rfl rfl
  | rdreg regno => exact execRdreg_mapPayload f s regno

/-- An intake step drops or pushes the byte it pops, whatever that byte is (R176, R177). -/
theorem intakeStep_mapPayload : intakeStep (s.mapPayload f) = mapOutcome f (intakeStep s) := by
  have hqueue : (s.mapPayload f).rxQueue = s.rxQueue.map f := rfl
  unfold intakeStep
  refine ite_mapOutcome ?_ rfl
  rw [hqueue]
  cases s.rxQueue with
  | nil => rfl
  | cons b rest =>
    have hpush := State.pushByte_mapPayload f { s with rxQueue := rest } b
    exact ite_mapOutcome rfl ((congrArg finish hpush).trans (finish_mapPayload f _))

theorem flushStep_mapPayload : flushStep (s.mapPayload f) = mapOutcome f (flushStep s) := by
  unfold flushStep
  refine ite_mapOutcome ?_ rfl
  cases hflush : s.flushNeeded <;> simp [hflush, mapOutcome, State.mapPayload]

theorem grantStep_mapPayload : grantStep (s.mapPayload f) = mapOutcome f (grantStep s) := by
  have hread : (s.mapPayload f).readRun (s.mapPayload f).r (s.mapPayload f).offerLength
      = (s.readRun s.r s.offerLength).map (List.map f) := s.readRun_mapPayload f s.r s.offerLength
  unfold grantStep
  rw [hread, s.clearGranted_mapPayload f]
  refine ite_mapOutcome (ite_mapOutcome rfl ?_) rfl
  cases s.readRun s.r s.offerLength with
  | error why => rfl
  | ok bytes => exact congrArg Host.Outcome.next (s.clearGranted.makeOffer_mapPayload f s.r s.offerLength bytes)

theorem answerStep_mapPayload (k : Word) : answerStep k (s.mapPayload f) = mapOutcome f (answerStep k s) := by
  have hread : (s.mapPayload f).readRun (s.mapPayload f).offerOff k.toNat
      = (s.readRun s.offerOff k.toNat).map (List.map f) := s.readRun_mapPayload f s.offerOff k.toNat
  unfold answerStep
  rw [hread]
  refine ite_mapOutcome (ite_mapOutcome rfl ?_) rfl
  cases s.readRun s.offerOff k.toNat with
  | error why => rfl
  | ok bytes =>
    simp only [Except.map, s.deliver_mapPayload f]
    exact ite_mapOutcome rfl rfl

theorem rxArriveStep_mapPayload (b : Byte) :
    rxArriveStep (f b) (s.mapPayload f) = mapOutcome f (rxArriveStep b s) := by
  have hlength : (s.mapPayload f).rxQueue.length = s.rxQueue.length := List.length_map f
  unfold rxArriveStep
  rw [hlength, s.overrun_mapPayload f b]
  refine ite_mapOutcome ?_ rfl
  simp [mapOutcome, State.mapPayload]

theorem wiringStep_mapPayload : wiringStep (s.mapPayload f) = mapOutcome f (wiringStep s) := by
  unfold wiringStep
  rw [s.wiringEnabled_mapPayload f]
  exact ite_mapOutcome rfl rfl

/-- The step of every agent but the control port's, whose word carries its byte in the encoding, commutes with the
change. -/
theorem runStep_mapPayload (e : AgentStep) (h : e ≠ .issue) :
    runStep (AgentStep.mapPayload f e) (s.mapPayload f) = mapOutcome f (runStep e s) := by
  cases e with
  | issue => exact absurd rfl h
  | intake => exact intakeStep_mapPayload f s
  | flush => exact flushStep_mapPayload f s
  | grant => exact grantStep_mapPayload f s
  | writeSync => rfl
  | readSync => rfl
  | answer k => exact answerStep_mapPayload f s k
  | rxArrive b => exact rxArriveStep_mapPayload f s b
  | rxIdle => rfl
  | irqStart => exact wiringStep_mapPayload f s
  | reset => rfl

end Sys2Proof.Machine

open Sys2Proof Sys2Proof.Machine

/-- Settles O49: the change commutes with every operation and with every other agent's step. -/
theorem payloadIsOpaque : Obligations.PayloadIsOpaque :=
  fun f => ⟨fun i s => exec_mapPayload f s i, fun e s he => runStep_mapPayload f s e he⟩
end

section
/-! SUPPORT. What RDREG reads (`44_control_port.md` R225): the whole next state, and every bit of each register value
of `10_state.md` R34 to R42. -/

namespace Sys2Proof.Machine

/-! ## RDREG's next state -/

/-- RDREG of a register emits its value and touches nothing else (R225). -/
theorem exec_rdreg_of_some (s : State) {regno : BitVec 4} {reg : RegName} (h : regOfNumber regno = some reg) :
    exec (.rdreg regno) s = .next { s with results := s.results ++ [s.regValue reg], opPos := s.opPos + 1 } := by
  simp only [exec, execRdreg, h]
  rfl

/-- RDREG of a number that names no register acts as an illegal word (R88, log entry 13). -/
theorem exec_rdreg_of_none (s : State) {regno : BitVec 4} (h : regOfNumber regno = none) :
    exec (.rdreg regno) s = .next s.illegalWord := by
  simp only [exec, execRdreg, h]

/-- The numbers that name no register are those above 6 (R34, R88). -/
theorem regOfNumber_eq_none (regno : BitVec 4) : regOfNumber regno = none ↔ 7 ≤ regno.toNat := by
  revert regno
  decide

/-! ## The bits of a register value -/

/-- An index register holds the low `K` bits of the index (R36, R37, R41, R42). -/
theorem State.getLsbD_indexValue (s : State) (index i : Nat) (hi : i < 32) :
    (s.indexValue index).getLsbD i = (decide (i < s.cfg.k) && index.testBit i) := by
  simp only [State.indexValue, State.cap, Params.capacity, BitVec.getLsbD_ofNat, Nat.testBit_mod_two_pow, hi,
    decide_true, Bool.true_and]

/-- A flag's word has the flag at its own position and zeros elsewhere. -/
theorem getLsbD_flagAt (i j : Nat) (flag : Bool) :
    (flagAt i flag).getLsbD j = (flag && decide (j = i) && decide (j < 32)) := by
  simp only [flagAt, BitVec.getLsbD_shiftLeft, BitVec.getLsbD_setWidth, BitVec.getLsbD_ofBool]
  grind

/-- STATUS as R35's table: the flags by position, and zeros from bit 10 on. -/
theorem State.getLsbD_statusValue (s : State) (i : Nat) :
    s.statusValue.getLsbD i =
      ([s.emptyC, s.fullP, s.capBusy, s.drnBusy, s.reqCap, s.reqDone, s.reqTick, s.flushNeeded, s.lineSet,
        s.fault].getD i false) := by
  simp only [State.statusValue, BitVec.getLsbD_or, getLsbD_flagAt]
  by_cases hi : i < 10
  · interval_cases i <;> simp
  · have hne (n : Nat) (hn : n < 10) : i ≠ n := by omega
    simp [hne, Nat.le_of_not_lt hi]

/-- FAULT_CAUSE is the four bits of the code (R38). -/
theorem State.getLsbD_faultCauseValue (s : State) (i : Nat) :
    (s.regValue .faultCause).getLsbD i = (decide (i < 4) && s.faultCause.getLsbD i) := by
  simp only [State.regValue, BitVec.getLsbD_setWidth]
  by_cases hi : i < 4
  · simp [hi, show i < 32 by omega]
  · simp [hi, s.faultCause.getLsbD_of_ge i (Nat.le_of_not_lt hi)]

/-- CONFIG holds `K` in bits 4:0 and `MAX_CHUNK` in bits 31:8 (R39). -/
theorem State.getLsbD_configValue (s : State) (i : Nat) (hi : i < 32) :
    s.configValue.getLsbD i =
      if i < 5 then s.cfg.k.testBit i else decide (8 ≤ i) && s.cfg.maxChunk.testBit (i - 8) := by
  simp only [State.configValue, BitVec.getLsbD_or, BitVec.getLsbD_shiftLeft, BitVec.getLsbD_setWidth,
    BitVec.getLsbD_ofNat]
  by_cases h5 : i < 5
  · simp [h5, hi, show i < 8 by omega]
  · by_cases h8 : i < 8
    · simp [h5, h8]
    · simp [h5, h8, hi, show i - 8 < 24 by omega, show i - 8 < 32 by omega, Nat.le_of_not_lt h8]

/-- Right after reset the ring is empty, not full, and every other flag is down (R35, R280). -/
theorem launch_statusValue (cfg : Params) (ops : List Word) (queue : List Byte) (idle : Bool)
    (sched : List AgentStep) (h : cfg.legal = true) : (State.launch cfg ops queue idle sched).statusValue = 1 := by
  have hfull : (State.launch cfg ops queue idle sched).fullP = false := by
    rw [State.fullP_eq_false]
    change (0 + 1) % cfg.capacity ≠ 0
    rw [Nat.mod_eq_of_lt (capacity_ge_two cfg h)]
    decide
  have hempty : (State.launch cfg ops queue idle sched).emptyC = true := (State.emptyC_iff _).2 rfl
  rw [State.statusValue, hfull, hempty]
  change flagAt 0 true ||| flagAt 1 false ||| flagAt 2 false ||| flagAt 3 false ||| flagAt 4 false ||| flagAt 5 false
    ||| flagAt 6 false ||| flagAt 7 false ||| flagAt 8 false ||| flagAt 9 false = 1
  decide

end Sys2Proof.Machine

open Sys2Proof Sys2Proof.Machine

/-- Settles O22: each of the four registers is an index value. -/
theorem rdregReadsIndices : Obligations.RdregReadsIndices := by
  intro s regno index h
  refine ⟨s.indexValue index, ?_, s.getLsbD_indexValue index⟩
  obtain ⟨rfl, rfl⟩ | ⟨rfl, rfl⟩ | ⟨rfl, rfl⟩ | ⟨rfl, rfl⟩ := h
  · exact exec_rdreg_of_some s (reg := .widx) rfl
  · exact exec_rdreg_of_some s (reg := .ridx) rfl
  · exact exec_rdreg_of_some s (reg := .wsync) rfl
  · exact exec_rdreg_of_some s (reg := .rsync) rfl

/-- Settles O24: FAULT_CAUSE and CONFIG bit by bit, and the numbers that name no register. -/
theorem rdregReadsCauseAndConfig : Obligations.RdregReadsCauseAndConfig := by
  intro s
  refine ⟨⟨_, exec_rdreg_of_some s (reg := .faultCause) rfl, s.getLsbD_faultCauseValue⟩,
    ⟨_, exec_rdreg_of_some s (reg := .config) rfl, s.getLsbD_configValue⟩, fun regno hregno => ?_⟩
  exact exec_rdreg_of_none s ((regOfNumber_eq_none regno).2 hregno)

/-- Settles O23: each bit by R35's table, and the launch state's flags. -/
theorem rdregReadsStatus : Obligations.RdregReadsStatus := by
  constructor
  · intro cfg ops queue idle sched hlegal
    rw [exec_rdreg_of_some _ (reg := .status) rfl, State.regValue, launch_statusValue _ _ _ _ _ hlegal]
    rfl
  · intro s
    refine ⟨s.statusValue, exec_rdreg_of_some s (reg := .status) rfl, ?_⟩
    simp only [s.getLsbD_statusValue]
    refine ⟨?empty, ?full, ?capBusy, ?drnBusy, rfl, rfl, rfl, rfl, rfl, rfl, fun i hi => ?above⟩
    case empty => exact Bool.eq_iff_iff.2 (by simp)
    case full => exact Bool.eq_iff_iff.2 (by simp [State.cap, Params.capacity])
    case capBusy => exact Bool.eq_iff_iff.2 (by simp)
    case drnBusy => exact Bool.eq_iff_iff.2 (by simp)
    case above => simp [hi]
end

section
/-! SUPPORT. The writers of the indices, of their copies and of storage (`10_state.md` R20, R22), read off the list of
every next state. -/

namespace Sys2Proof.Machine

variable {s t : State} {e : AgentStep}

/-- Only a push moves `w` or writes storage: the intake's, or a PUSH while no episode runs. -/
theorem Change.producer_of_write (h : Change s e t) (he : e ≠ .reset) (hne : t.w ≠ s.w ∨ t.storage ≠ s.storage) :
    e = .intake ∧ s.capState = .loop
      ∨ e = .issue ∧ s.capState = .idle ∧ ∃ word d, s.ops[s.opPos]? = some word ∧ decode word = .ok (.push d) := by
  cases h with
  | push word d hfetch hdecode hcap => exact .inr ⟨rfl, hcap, word, d, hfetch, hdecode⟩
  | intakePush b rest hcap => exact .inl ⟨rfl, hcap⟩
  | reset => exact absurd rfl he
  | _ => simp at hne

/-- Only a full answer to an outstanding offer moves `r`, or an ADVRD while none is outstanding. -/
theorem Change.consumer_of_r_ne (h : Change s e t) (he : e ≠ .reset) (hne : t.r ≠ s.r) :
    (∃ k : Word, e = .answer k ∧ s.drnState = .offer ∧ k.toNat = s.offerLen)
      ∨ e = .issue ∧ s.drnState = .idle ∧ ∃ word n, s.ops[s.opPos]? = some word ∧ decode word = .ok (.advrd n) := by
  cases h with
  | advance word n hfetch hdecode hdrn => exact .inr ⟨rfl, hdrn, word, n, hfetch, hdecode⟩
  | answerFull k bytes hdrn hfull => exact .inl ⟨k, rfl, hdrn, hfull⟩
  | reset => exact absurd rfl he
  | _ => simp [State.pushed] at hne

/-- Only its synchroniser and the flush change `w_sync`. -/
theorem Change.writer_of_wSync_ne (h : Change s e t) (he : e ≠ .reset) (hne : t.wSync ≠ s.wSync) :
    e = .writeSync ∨ e = .flush := by
  cases h with
  | writeSync => exact .inl rfl
  | flushPost => exact .inr rfl
  | reset => exact absurd rfl he
  | _ => simp [State.pushed] at hne

/-- Only its synchroniser changes `r_sync`. -/
theorem Change.writer_of_rSync_ne (h : Change s e t) (he : e ≠ .reset) (hne : t.rSync ≠ s.rSync) : e = .readSync := by
  cases h with
  | readSync => rfl
  | reset => exact absurd rfl he
  | _ => simp [State.pushed] at hne

end Sys2Proof.Machine

open Sys2Proof Sys2Proof.Machine

/-- Settles O42, by the list of every next state. -/
theorem onlyTheOwnersWriteTheRing : Obligations.OnlyTheOwnersWriteTheRing := by
  intro e s t he hstep
  have h : Change s e t := runStep_change e s t hstep
  exact ⟨h.producer_of_write he, h.consumer_of_r_ne he, h.writer_of_wSync_ne he, h.writer_of_rSync_ne he⟩
end

section
/-! SUPPORT. The ring's part of the invariant (`20_memory.md` R73, items 1 to 3, and the ranges of `10_state.md` R20):
one lemma for each way a step can move an index, a cell or the offer. -/

namespace Sys2Proof.Machine

variable {s : State}

/-- The conditions of `State.Inv` on the configuration, the ring and the outstanding offer. They read `cfg`, the four
indices, `storage` and the drain engine's registers, so a step that leaves those alone keeps them by definition. -/
def State.RingKept (s : State) : Prop :=
  s.cfg.legal = true ∧ s.IndexBounds ∧ s.RingOrdered ∧ s.UnreadHeld ∧ s.OfferInside ∧ s.StorageCanonical

/-- The conditions of `State.Inv` on the other registers: R27, R242, R45 and R40. -/
def State.RecordsKept (s : State) : Prop := s.FlushOutside ∧ s.FaultRecord ∧ s.ReceiverBounded ∧ s.PortInside

theorem State.inv_iff : s.Inv ↔ s.RingKept ∧ s.RecordsKept := by
  simp only [State.Inv, State.RingKept, State.RecordsKept, and_assoc]

/-- Right after reset the ring is empty and no offer is outstanding. -/
theorem State.launch_ringKept (cfg : Params) (ops : List Word) (queue : List Byte) (idle : Bool)
    (sched : List AgentStep) (hlegal : cfg.legal = true) : (State.launch cfg ops queue idle sched).RingKept := by
  have hpos : 0 < cfg.capacity := capacity_pos cfg
  have hdist : ringDist cfg.capacity 0 0 = 0 := ringDist_self _ _ hpos
  refine ⟨hlegal, ⟨hpos, hpos, hpos, hpos⟩, ?ordered, ?held, nofun, rfl, rfl⟩
  case ordered => simp [State.RingOrdered, State.launch, hdist]
  case held => simp [State.UnreadHeld, State.pending, State.launch, hdist]

/-- A push into a ring that is not full in the producer view (R74): the new unread cell is the one written. -/
theorem State.RingKept.pushed (h : s.RingKept) (hfull : (s.w + 1) % s.cap ≠ s.rSync) (b : Byte) :
    (s.pushed b).RingKept := by
  obtain ⟨hlegal, ⟨hw, hr, hws, hrs⟩, hord, hheld, hoffer, hwf, hcells⟩ := h
  obtain ⟨hwSync, hroom, hpending⟩ :=
    ringDist_push s.cap s.w s.r s.wSync s.rSync (capacity_ge_two _ hlegal) hw hr hws hrs hord hfull
  refine ⟨hlegal, ⟨Nat.mod_lt _ (capacity_pos _), hr, hws, hrs⟩, ?ordered, ?held, hoffer, Memory.write_wf _ _ _ hwf,
    Memory.write_all _ _ _ (fun a => decide (a < s.cap)) (decide_eq_true hw) hcells⟩
  case ordered =>
    change ringDist s.cap s.rSync s.r + ringDist s.cap s.r s.wSync + ringDist s.cap s.wSync ((s.w + 1) % s.cap)
      ≤ s.cap - 1
    rwa [hwSync]
  case held =>
    intro i (hi : i < ringDist s.cap s.r ((s.w + 1) % s.cap))
    change ((s.storage.write s.w b).read ((s.r + i) % s.cap)).isSome = true
    rw [Memory.read_write]
    split
    · rfl
    · rename_i hne
      have hlast : i ≠ s.pending := fun heq => hne (by rw [heq, index_at_ringDist _ _ _ hr hw])
      exact hheld i (by rw [hpending] at hi; exact Nat.lt_of_le_of_ne (Nat.le_of_lt_succ hi) hlast)

/-- An advance of `r` over bytes the consumer sees, while no offer is outstanding (R115). -/
theorem State.RingKept.advanceRead (h : s.RingKept) (hdrn : s.drnState = .idle) {n : Nat} (hn : n ≤ s.pendingC) :
    (s.advanceRead n).RingKept := by
  obtain ⟨hlegal, ⟨hw, hr, hws, hrs⟩, hord, hheld, -, hstorage⟩ := h
  obtain ⟨hord', hpending⟩ := ringDist_advance s.cap s.w s.r s.wSync s.rSync n hw hr hws hrs hord hn
  refine ⟨hlegal, ⟨hw, Nat.mod_lt _ (capacity_pos _), hws, hrs⟩, hord', ?held, ?offer, hstorage⟩
  case held =>
    intro i (hi : i < ringDist s.cap ((s.r + n) % s.cap) s.w)
    change (s.storage.read (((s.r + n) % s.cap + i) % s.cap)).isSome = true
    rw [Nat.mod_add_mod, Nat.add_assoc]
    exact hheld (n + i) (by change n + i < ringDist s.cap s.r s.w; omega)
  case offer =>
    intro hd
    rw [State.advanceRead_drnState, hdrn] at hd
    cases hd

/-- `w` is copied into `w_sync` (R66): the consumer sees every unread byte. -/
theorem State.RingKept.writeSync (h : s.RingKept) : { s with wSync := s.w }.RingKept := by
  obtain ⟨hlegal, ⟨hw, hr, hws, hrs⟩, hord, hheld, hoffer, hstorage⟩ := h
  obtain ⟨hord', hsees⟩ := ringDist_sync s.cap s.w s.r s.wSync s.rSync hw hr hws hord
  refine ⟨hlegal, ⟨hw, hr, hw, hrs⟩, hord', hheld, fun hd => ?_, hstorage⟩
  obtain ⟨hoff, hpos, hseen, hchunk, hend⟩ := hoffer hd
  exact ⟨hoff, hpos, Nat.le_trans hseen hsees, hchunk, hend⟩

/-- `r` is copied into `r_sync` (R67). -/
theorem State.RingKept.readSync (h : s.RingKept) : { s with rSync := s.r }.RingKept := by
  obtain ⟨hlegal, ⟨hw, hr, hws, hrs⟩, hord, hheld, hoffer, hstorage⟩ := h
  refine ⟨hlegal, ⟨hw, hr, hws, hr⟩, ?_, hheld, hoffer, hstorage⟩
  change ringDist s.cap s.r s.r + ringDist s.cap s.r s.wSync + ringDist s.cap s.wSync s.w ≤ s.cap - 1
  rw [ringDist_self _ _ hr]
  omega

/-- The transaction of an offer ends (R141 to R143). -/
theorem State.RingKept.drnIdle (h : s.RingKept) : { s with drnState := .idle }.RingKept := by
  obtain ⟨hlegal, hbounds, hord, hheld, -, hstorage⟩ := h
  exact ⟨hlegal, hbounds, hord, hheld, nofun, hstorage⟩

/-- The request a grant serves is no part of the ring. -/
theorem State.RingKept.clearGranted (h : s.RingKept) : s.clearGranted.RingKept := by
  unfold State.clearGranted
  split
  · exact h
  · split <;> exact h

/-- What a grant offers in a ring that is not empty in the consumer view (R135, R136): at least one byte, none that the
consumer does not see, at most a chunk, and nothing past the physical end of storage. -/
theorem State.RingKept.offerLength_bounds (h : s.RingKept) (hne : s.wSync ≠ s.r) :
    1 ≤ s.offerLength ∧ s.offerLength ≤ s.pendingC ∧ s.offerLength ≤ s.cfg.maxChunk
      ∧ s.r + s.offerLength ≤ s.cap := by
  obtain ⟨hlegal, ⟨hw, hr, hws, hrs⟩, -⟩ := h
  obtain ⟨-, -, hchunk, -⟩ := (legal_iff _).1 hlegal
  have hrun : 1 ≤ s.runLength ∧ s.runLength ≤ s.pendingC ∧ s.r + s.runLength ≤ s.cap := by
    have hdist := ringDist_cases s.cap s.r s.wSync hr hws
    unfold State.runLength State.pendingC
    split <;> omega
  unfold State.offerLength
  omega

/-- An offer at `r` within those bounds (R137). -/
theorem State.RingKept.makeOffer (h : s.RingKept) {off len : Nat} (hoff : off = s.r)
    (hlen : 1 ≤ len ∧ len ≤ s.pendingC ∧ len ≤ s.cfg.maxChunk ∧ s.r + len ≤ s.cap) (bytes : List Byte) :
    (s.makeOffer off len bytes).RingKept := by
  subst hoff
  obtain ⟨hlegal, hbounds, hord, hheld, -, hstorage⟩ := h
  exact ⟨hlegal, hbounds, hord, hheld, fun _ => ⟨rfl, hlen⟩, hstorage⟩

/-- Bytes are delivered and the offer's transaction ends (R142). -/
theorem State.RingKept.deliver (h : s.RingKept) (bytes : List Byte) : (s.deliver bytes).RingKept := h.drnIdle

/-- A commit (R141): `r` advances by the offer, which the consumer sees. -/
theorem State.RingKept.commit (h : s.RingKept) (hdrn : s.drnState = .offer) (bytes : List Byte) :
    ((s.deliver bytes).advanceRead s.offerLen).RingKept := by
  have ⟨_, _, _, _, hoffer, _⟩ := h
  obtain ⟨-, -, hseen, -⟩ := hoffer hdrn
  exact (h.deliver bytes).advanceRead rfl hseen

/-- Every step of every agent keeps the ring's part of the invariant. -/
theorem Change.ringKept {e : AgentStep} {t : State} (h : Change s e t) (hs : s.RingKept) : t.RingKept := by
  cases h with
  | push word d hfetch hdecode hcap hfull => exact hs.pushed hfull d
  | intakePush b rest hcap hqueue hfull => exact hs.pushed hfull b
  | advance word n hfetch hdecode hdrn hn => exact hs.advanceRead hdrn hn
  | flushPost => exact hs.writeSync
  | writeSync => exact hs.writeSync
  | readSync => exact hs.readSync
  | grantEmpty => exact hs.clearGranted
  | grantOffer bytes hen hne =>
    exact hs.clearGranted.makeOffer s.clearGranted_r.symm
      (by simpa [State.pendingC, State.cap] using hs.offerLength_bounds hne) bytes
  | answerOver => exact hs.drnIdle
  | answerFull k bytes hdrn => exact hs.commit hdrn bytes
  | answerShort k bytes => exact hs.deliver bytes
  | reset => exact State.launch_ringKept s.cfg s.ops s.rxQueue s.rxIdle s.sched hs.1
  | _ => exact hs

end Sys2Proof.Machine
end

section
/-! SUPPORT. The rest of the invariant, and the record of an outstanding offer (`20_memory.md` R151), along every step;
then the invariant at reset and its preservation. -/

namespace Sys2Proof.Machine

variable {s t : State} {e : AgentStep}

/-! ## The other registers -/

/-- `flush_needed` is set inside an episode only, and an episode's end clears it (R27, R178). -/
theorem Change.flushOutside (h : Change s e t) (hs : s.FlushOutside) : t.FlushOutside := by
  cases h with
  | capture | wiring | intakeEnd | intakeDrop => nofun
  | flushPost | reset => exact fun _ => rfl
  | flushEnd hcap hflush => exact fun _ => hflush
  | grantEmpty | grantOffer => simpa [State.FlushOutside] using hs
  | _ => exact hs

/-- The codes of R242 are 1 to 5. -/
theorem FaultCause.code_range (c : FaultCause) : c.code ≠ 0 ∧ c.code.toNat ≤ 5 := by
  cases c <;> decide

/-- The one way of taking an exception keeps the fault record well formed (R241). -/
theorem State.raiseFault_faultRecord (c : FaultCause) (hs : s.FaultRecord) : (s.raiseFault c).FaultRecord := by
  obtain ⟨hnonzero, hcode⟩ := c.code_range
  unfold State.FaultRecord
  rw [State.raiseFault_faultCause]
  split
  · exact ⟨iff_of_true rfl hnonzero, hcode⟩
  · exact ⟨iff_of_true rfl ‹_›, hs.2⟩

theorem Change.faultRecord (h : Change s e t) (hs : s.FaultRecord) : t.FaultRecord := by
  cases h with
  | faultWord c => exact State.raiseFault_faultRecord c hs
  | answerOver => exact State.raiseFault_faultRecord .transportOveraccept hs
  | grantEmpty | grantOffer => simpa [State.FaultRecord] using hs
  | reset => simp [State.FaultRecord, State.launch]
  | _ => exact hs

/-- The receiver's queue fits before and after (R45, R186); the intake only takes from it. -/
theorem Change.receiverBounded (h : Change s e t) (hlegal : s.cfg.legal = true) (hs : s.ReceiverBounded) :
    t.ReceiverBounded := by
  obtain ⟨-, -, -, -, hdepth⟩ := (legal_iff _).1 hlegal
  cases h with
  | intakeDrop b rest _ hqueue | intakePush b rest _ hqueue =>
    have hlen : rest.length + 1 ≤ s.cfg.rxDepth := by simpa [State.ReceiverBounded, hqueue] using hs
    exact Nat.le_of_succ_le hlen
  | rxQueue b queue draws hqueue => exact hqueue.trans (max_le hdepth (max_le hs le_rfl))
  | grantEmpty | grantOffer => simpa [State.ReceiverBounded] using hs
  | _ => exact hs

/-- Every step leaves the port's position and the program alone, but for the issue's advance by 1 (R221). -/
theorem Change.port (h : Change s e t) : t.ops = s.ops ∧ (t.opPos = s.opPos ∨ e = .issue ∧ t.opPos = s.opPos + 1) := by
  cases h <;> simp [State.pushed, State.launch]

/-- The position stays within the program, because only a word of the program is issued (R220). -/
theorem portInside_of_runStep (h : runStep e s = .next t) (hs : s.PortInside) : t.PortInside := by
  obtain ⟨hops, hpos⟩ := (runStep_change e s t h).port
  unfold State.PortInside
  rw [hops]
  rcases hpos with hsame | ⟨rfl, hnext⟩
  · exact hsame ▸ hs
  · rcases issue_inside s t h with rfl | hlt
    · exact hs
    · omega

/-! ## The record of an outstanding offer -/

/-- A push writes no cell of an outstanding offer, whose cells are unread (R73, R74). -/
theorem State.pushed_readRun_offer (h : s.Inv) (hdrn : s.drnState = .offer) (b : Byte) :
    (s.pushed b).readRun s.offerOff s.offerLen = s.readRun s.offerOff s.offerLen := by
  have ⟨_, _, _, _, hoffer, _⟩ := h
  obtain ⟨hoff, -, hseen, -, hend⟩ := hoffer hdrn
  refine State.readRun_congr s (s.pushed b) _ _ rfl fun i hi => Memory.read_write_other _ _ _ _ (Ne.symm ?_)
  have hpending := s.pending_eq h
  have hunread := s.unread_ne_w h i (by omega)
  rwa [Nat.mod_eq_of_lt (by omega), ← hoff] at hunread

/-- So a push keeps the record. -/
theorem State.OfferRecorded.pushed (h : s.OfferRecorded) (hs : s.Inv) (b : Byte) : (s.pushed b).OfferRecorded := by
  intro hdrn
  change s.offers.getLast?.map _
    = some (s.offerOff, s.offerLen, ((s.pushed b).readRun s.offerOff s.offerLen).toOption)
  rw [State.pushed_readRun_offer hs hdrn]
  exact h hdrn

/-- The offer just made is the last record, with the bytes read (R137). -/
theorem State.offerRecorded_makeOffer {off len : Nat} {bytes : List Byte} (h : s.readRun off len = .ok bytes) :
    (s.makeOffer off len bytes).OfferRecorded := by
  intro _
  have hread : (s.makeOffer off len bytes).readRun off len = .ok bytes :=
    (State.readRun_congr s (s.makeOffer off len bytes) off len rfl fun _ _ => rfl).trans h
  simp [hread, Except.toOption]

/-- Every step keeps the record of an outstanding offer. -/
theorem Change.offerRecorded (h : Change s e t) (hs : s.Inv) (hrec : s.OfferRecorded) : t.OfferRecorded := by
  cases h with
  | push word d =>
    exact State.offerRecorded_congr (s.pushed d) _ rfl rfl rfl rfl rfl rfl (hrec.pushed hs d)
  | intakePush b rest =>
    exact State.offerRecorded_congr (s.pushed b) _ rfl rfl rfl rfl rfl rfl (hrec.pushed hs b)
  | advance word n hfetch hdecode hdrn => exact State.offerRecorded_of_idle _ hdrn
  | grantOffer bytes hen hne hread =>
    refine State.offerRecorded_makeOffer (Eq.trans ?_ hread)
    exact State.readRun_congr s _ _ _ s.clearGranted_cfg fun i _ => by rw [s.clearGranted_storage]
  | answerOver | answerFull | answerShort | reset => exact State.offerRecorded_of_idle _ rfl
  | _ => exact State.offerRecorded_congr s _ (by simp) (by simp) (by simp) (by simp) (by simp) (by simp) hrec

/-! ## Every step -/

/-- The invariant, for every step of every agent. -/
theorem State.Inv.next (hs : s.Inv) (h : runStep e s = .next t) : t.Inv := by
  have hchange : Change s e t := runStep_change e s t h
  obtain ⟨hring, hflush, hfault, hreceiver, hport⟩ := State.inv_iff.1 hs
  exact State.inv_iff.2 ⟨hchange.ringKept hring, hchange.flushOutside hflush, hchange.faultRecord hfault,
    hchange.receiverBounded hring.1 hreceiver, portInside_of_runStep h hport⟩

/-- The choice of the next agent step touches the schedule alone. -/
theorem State.Inv.popStep (hs : s.Inv) : s.popStep.Inv := by
  unfold State.popStep
  split <;> exact hs

theorem State.OfferRecorded.popStep (h : s.OfferRecorded) : s.popStep.OfferRecorded :=
  State.offerRecorded_congr s _ s.popStep_cfg s.popStep_storage s.popStep_drnState s.popStep_offerOff
    s.popStep_offerLen s.popStep_offers h

/-- A launch state of a legal configuration whose receiver queue fits. -/
theorem State.launch_inv (cfg : Params) (ops : List Word) (queue : List Byte) (idle : Bool) (sched : List AgentStep)
    (hlegal : cfg.legal = true) (hqueue : queue.length ≤ cfg.rxDepth) :
    (State.launch cfg ops queue idle sched).Inv :=
  State.inv_iff.2 ⟨State.launch_ringKept cfg ops queue idle sched hlegal, fun _ => rfl,
    by simp [State.FaultRecord, State.launch], hqueue, Nat.zero_le _⟩

end Sys2Proof.Machine

open Sys2Proof Sys2Proof.Machine

/-- Settles O39: each part of the invariant, and the record, along the list of every next state. -/
theorem everyStepKeepsTheInvariant : Obligations.EveryStepKeepsTheInvariant := by
  intro s t hs hstep
  obtain ⟨-, hrun⟩ := step_next s t hstep
  exact ⟨hs.popStep.next hrun, fun hrec => (runStep_change _ _ t hrun).offerRecorded hs.popStep hrec.popStep⟩

/-- Settles O38: `State.reset` is one of the launch states. -/
theorem invariantHoldsAtReset : Obligations.InvariantHoldsAtReset := by
  have hlaunch (cfg : Params) (ops : List Word) (queue : List Byte) (idle : Bool) (sched : List AgentStep)
      (hlegal : cfg.legal = true) (hqueue : queue.length ≤ cfg.rxDepth) :
      (State.launch cfg ops queue idle sched).Inv ∧ (State.launch cfg ops queue idle sched).OfferRecorded
        ∧ (cfg.platformIrq = false → (State.launch cfg ops queue idle sched).LaunchesRun) :=
    have hinv := State.launch_inv cfg ops queue idle sched hlegal hqueue
    ⟨hinv, State.offerRecorded_of_idle _ rfl, fun hmode => ⟨hinv, hmode, rfl, rfl, rfl, rfl⟩⟩
  obtain ⟨hinv, hrec, hruns⟩ := hlaunch exampleParams [] [] false [] rfl (Nat.zero_le _)
  exact ⟨⟨hinv, hrec, hruns rfl⟩, hlaunch⟩

/-- Settles O34, by the conditions under which each synchroniser is enabled. -/
theorem synchronisersCopyWholeIndices : Obligations.SynchronisersCopyWholeIndices :=
  fun _ => ⟨rfl, rfl, bne_iff_ne, bne_iff_ne⟩
end

section
/-! SUPPORT. No step stops a machine that keeps the invariant (`20_memory.md` R62, R152), and what a step writes
(R74). -/

namespace Sys2Proof.Machine

variable {s : State}

/-! ## The reads of the drain engine -/

/-- The cells of an outstanding offer can be read (R152). -/
theorem State.Inv.readRun_offer (hs : s.Inv) (hdrn : s.drnState = .offer) {n : Nat} (hn : n ≤ s.offerLen) :
    ∃ bytes, s.readRun s.offerOff n = .ok bytes := by
  have ⟨_, _, _, _, hoffer, _⟩ := hs
  obtain ⟨hoff, -, hseen, -, hend⟩ := hoffer hdrn
  rw [hoff] at hend ⊢
  exact s.readRun_exists _ _ (s.run_held hs n (hn.trans hseen) (by omega))

/-- The cells a grant offers can be read (R152). -/
theorem State.Inv.readRun_grant (hs : s.Inv) (hne : s.wSync ≠ s.r) :
    ∃ bytes, s.readRun s.r s.offerLength = .ok bytes := by
  obtain ⟨-, hseen, -, hend⟩ := (State.inv_iff.1 hs).1.offerLength_bounds hne
  exact s.readRun_exists _ _ (s.run_held hs _ hseen hend)

/-! ## Every step answers a next state -/

/-- Of the operations only PUSH touches storage, in cell `w`. -/
theorem exec_exists_next (hw : s.w < s.cap) (i : Instr) : ∃ t, exec i s = .next t := by
  cases i with
  | push d =>
    simp only [exec, execPush]
    split
    · exact ⟨_, rfl⟩
    · split
      · exact ⟨_, rfl⟩
      · rw [s.pushByte_of_lt d hw]
        exact ⟨_, rfl⟩
  | advrd n =>
    simp only [exec, execAdvrd]
    split
    · exact ⟨_, rfl⟩
    · split <;> exact ⟨_, rfl⟩
  | capture => simp only [exec, execCapture]; split <;> exact ⟨_, rfl⟩
  | getbaud => simp only [exec, execGetbaud]; split <;> exact ⟨_, rfl⟩
  | fence => simp only [exec, execFence]; split <;> exact ⟨_, rfl⟩
  | rdreg regno => simp only [exec, execRdreg]; split <;> exact ⟨_, rfl⟩
  | _ => exact ⟨_, rfl⟩

theorem issueStep_exists_next (hw : s.w < s.cap) : ∃ t, issueStep s = .next t := by
  unfold issueStep
  split
  · exact ⟨_, rfl⟩
  · split
    · exact ⟨_, rfl⟩
    · exact exec_exists_next hw _

theorem intakeStep_exists_next (hw : s.w < s.cap) : ∃ t, intakeStep s = .next t := by
  unfold intakeStep
  split
  · split
    · exact ⟨_, rfl⟩
    · rename_i b rest hqueue
      dsimp only
      split
      · exact ⟨_, rfl⟩
      · exact ⟨_, congrArg finish (State.pushByte_of_lt { s with rxQueue := rest } b hw)⟩
  · exact ⟨_, rfl⟩

theorem grantStep_exists_next (hs : s.Inv) : ∃ t, grantStep s = .next t := by
  simp only [grantStep, s.emptyC_iff]
  split
  · split
    · exact ⟨_, rfl⟩
    · obtain ⟨bytes, hread⟩ := hs.readRun_grant ‹_›
      rw [hread]
      exact ⟨_, rfl⟩
  · exact ⟨_, rfl⟩

theorem answerStep_exists_next (hs : s.Inv) (k : Word) : ∃ t, answerStep k s = .next t := by
  simp only [answerStep, s.drnBusy_iff]
  split
  · split
    · exact ⟨_, rfl⟩
    · obtain ⟨bytes, hread⟩ := hs.readRun_offer ‹_› (Nat.not_lt.1 ‹_›)
      rw [hread]
      dsimp only
      split <;> exact ⟨_, rfl⟩
  · exact ⟨_, rfl⟩

/-- From a state that keeps the invariant every agent's step answers a next state. -/
theorem State.Inv.runStep_exists_next (hs : s.Inv) (e : AgentStep) : ∃ t, runStep e s = .next t := by
  have ⟨_, ⟨hw, _⟩, _⟩ := hs
  cases e with
  | issue => exact issueStep_exists_next hw
  | intake => exact intakeStep_exists_next hw
  | flush => simp only [runStep, flushStep]; split <;> exact ⟨_, rfl⟩
  | grant => exact grantStep_exists_next hs
  | answer k => exact answerStep_exists_next hs k
  | rxArrive b => simp only [runStep, rxArriveStep]; split <;> exact ⟨_, rfl⟩
  | irqStart => simp only [runStep, wiringStep]; split <;> exact ⟨_, rfl⟩
  | writeSync | readSync | rxIdle | reset => exact ⟨_, rfl⟩

/-! ## What a step writes -/

/-- A step of any agent but reset leaves storage alone or writes the one cell `w` (R74). -/
theorem Change.storage_eq_or_write {e : AgentStep} {t : State} (h : Change s e t) (he : e ≠ .reset) :
    t.storage = s.storage ∨ ∃ b, t.storage = s.storage.write s.w b := by
  cases h with
  | push word d => exact .inr ⟨d, rfl⟩
  | intakePush b rest => exact .inr ⟨b, rfl⟩
  | grantEmpty | grantOffer => exact .inl (by simp)
  | reset => exact absurd rfl he
  | _ => exact .inl rfl

/-- So it leaves every other cell alone. -/
theorem Change.read_of_ne_w {e : AgentStep} {t : State} (h : Change s e t) (he : e ≠ .reset) {a : Nat} (ha : a ≠ s.w) :
    t.storage.read a = s.storage.read a := by
  rcases h.storage_eq_or_write he with heq | ⟨b, heq⟩
  · rw [heq]
  · rw [heq, Memory.read_write_other _ _ _ _ ha.symm]

/-- And it erases none. -/
theorem Change.read_isSome {e : AgentStep} {t : State} (h : Change s e t) (he : e ≠ .reset) {a : Nat}
    (ha : (s.storage.read a).isSome = true) : (t.storage.read a).isSome = true := by
  rcases h.storage_eq_or_write he with heq | ⟨b, heq⟩
  · rwa [heq]
  · rw [heq, Memory.read_write]
    split
    · rfl
    · exact ha

end Sys2Proof.Machine

open Sys2Proof Sys2Proof.Machine

/-- Settles O40: the configuration is legal, and the chosen agent's step answers a next state. -/
theorem noStepStopsTheMachine : Obligations.NoStepStopsTheMachine := by
  intro s hs
  rw [step_of_legal s hs.1]
  exact hs.popStep.runStep_exists_next s.nextStep

/-- Settles O41: a step writes cell `w` at most, which is not among the unread ones. -/
theorem unreadBytesAreNeverOverwritten : Obligations.UnreadBytesAreNeverOverwritten := by
  intro e s t hs he hstep
  have h : Change s e t := runStep_change e s t hstep
  refine ⟨fun a ha => h.read_of_ne_w he ha, fun a ha => h.read_isSome he ha, fun i hi => ?_⟩
  have hne := s.unread_ne_w hs i hi
  exact ⟨hne, h.read_of_ne_w he hne⟩
end

section
/-! SUPPORT. The ring as a FIFO (`20_memory.md` R71): the cells read one after the other, what each abstract move is in
the ring, and which step makes it. -/

namespace Sys2Proof.Machine

variable {s t : State} {e : AgentStep}

/-! ## The bytes of consecutive cells -/

/-- A list read out by its own indices. -/
theorem filterMap_range_of_getElem? {α : Type} (l : List α) (g : Nat → Option α) (h : ∀ i, i < l.length → g i = l[i]?) :
    (List.range l.length).filterMap g = l := by
  induction l generalizing g with
  | nil => rfl
  | cons a l ih =>
    have htail := ih (g ∘ Nat.succ) fun i hi => h (i + 1) (Nat.succ_lt_succ hi)
    rw [List.length_cons, List.range_succ_eq_map, List.filterMap_cons_some (h 0 (Nat.succ_pos _)), List.filterMap_map,
      htail]

/-- The bytes of the `n` cells from index `a` on, around the end of storage. -/
def State.cellsFrom (s : State) (a n : Nat) : List Byte :=
  (List.range n).filterMap fun i => s.storage.read ((a + i) % s.cap)

theorem State.fifo_eq (s : State) : s.fifo = ⟨s.cellsFrom s.r s.pending, s.delivered⟩ := rfl

theorem State.cellsFrom_add (s : State) (a n m : Nat) :
    s.cellsFrom a (n + m) = s.cellsFrom a n ++ s.cellsFrom ((a + n) % s.cap) m := by
  simp only [State.cellsFrom, List.range_add, List.filterMap_append, List.filterMap_map, Function.comp_def,
    Nat.mod_add_mod, Nat.add_assoc]

/-- Cells that hold values give one byte each. -/
theorem State.length_cellsFrom {a n : Nat} (h : ∀ i, i < n → (s.storage.read ((a + i) % s.cap)).isSome = true) :
    (s.cellsFrom a n).length = n := by
  rw [State.cellsFrom, List.filterMap_length_eq_length.2 (by simpa using h), List.length_range]

/-- The bytes depend on the configuration and on the cells read. -/
theorem State.cellsFrom_congr {a n : Nat} (hcfg : t.cfg = s.cfg)
    (h : ∀ i, i < n → t.storage.read ((a + i) % s.cap) = s.storage.read ((a + i) % s.cap)) :
    t.cellsFrom a n = s.cellsFrom a n := by
  unfold State.cellsFrom State.cap
  rw [hcfg]
  exact List.filterMap_congr fun i hi => h i (List.mem_range.1 hi)

/-- A run of reads gives the bytes of its cells (R61). -/
theorem State.cellsFrom_of_readRun {a n : Nat} {bytes : List Byte} (h : s.readRun a n = .ok bytes) :
    s.cellsFrom a n = bytes := by
  obtain ⟨rfl, hread⟩ := (s.readRun_ok a n bytes).1 h
  refine filterMap_range_of_getElem? bytes _ fun i hi => ?_
  obtain ⟨hlt, hbyte⟩ := hread i hi
  rw [Nat.mod_eq_of_lt hlt, hbyte]

/-! ## The queue -/

/-- The queue depends on the configuration, `r`, `w` and storage. -/
theorem State.fifo_congr (hcfg : t.cfg = s.cfg) (hw : t.w = s.w) (hr : t.r = s.r) (hstorage : t.storage = s.storage)
    (hdelivered : t.delivered = s.delivered) : t.fifo = s.fifo := by
  simp only [State.fifo, State.pending, State.cap, hcfg, hw, hr, hstorage, hdelivered]

/-- The queue holds `dist(r, w)` bytes (R73). -/
theorem State.Inv.length_queue (hs : s.Inv) : s.fifo.queue.length = s.pending := by
  have ⟨_, _, _, hheld, _⟩ := hs
  exact State.length_cellsFrom hheld

/-- The front of the queue, and the rest of it. -/
theorem State.queue_split {n : Nat} (hn : n ≤ s.pending) :
    s.fifo.queue = s.cellsFrom s.r n ++ s.cellsFrom ((s.r + n) % s.cap) (s.pending - n) := by
  rw [← State.cellsFrom_add, Nat.add_sub_cancel' hn]
  rfl

/-- The front of the queue has a byte for each cell. -/
theorem State.Inv.length_front (hs : s.Inv) {n : Nat} (hn : n ≤ s.pending) : (s.cellsFrom s.r n).length = n := by
  have ⟨_, _, _, hheld, _⟩ := hs
  exact State.length_cellsFrom fun i hi => hheld i (Nat.lt_of_lt_of_le hi hn)

/-- A push puts its byte at the back (R70). -/
theorem State.Inv.fifo_pushed (hs : s.Inv) (hfull : (s.w + 1) % s.cap ≠ s.rSync) (b : Byte) :
    (s.pushed b).fifo = FifoMove.apply (.put b) s.fifo := by
  have ⟨hlegal, ⟨hw, hr, hws, hrs⟩, hord, _⟩ := hs
  obtain ⟨-, -, hpending⟩ :=
    ringDist_push s.cap s.w s.r s.wSync s.rSync (capacity_ge_two _ hlegal) hw hr hws hrs hord hfull
  have hold : (s.pushed b).cellsFrom s.r s.pending = s.cellsFrom s.r s.pending :=
    State.cellsFrom_congr rfl fun i hi => Memory.read_write_other _ _ _ _ (s.unread_ne_w hs i hi).symm
  have hnew : (s.pushed b).cellsFrom s.w 1 = [b] := by
    simp [State.cellsFrom, State.pushed, Nat.mod_eq_of_lt hw]
  have hqueue : (s.pushed b).cellsFrom s.r (s.pending + 1) = s.cellsFrom s.r s.pending ++ [b] := by
    rw [State.cellsFrom_add, hold]
    change _ ++ (s.pushed b).cellsFrom ((s.r + s.pending) % s.cap) 1 = _
    rw [index_at_ringDist _ _ _ hr hw, hnew]
  have hpushed : (s.pushed b).pending = s.pending + 1 := hpending
  rw [State.fifo_eq, hpushed]
  exact congrArg (fun q => (⟨q, s.delivered⟩ : Fifo)) hqueue

/-- An advance of `r` drops bytes at the front (R115). -/
theorem State.Inv.queue_advanceRead (hs : s.Inv) {n : Nat} (hn : n ≤ s.pendingC) :
    (s.advanceRead n).fifo.queue = s.fifo.queue.drop n := by
  have ⟨_, ⟨hw, hr, hws, hrs⟩, hord, _⟩ := hs
  obtain ⟨-, hpending⟩ := ringDist_advance s.cap s.w s.r s.wSync s.rSync n hw hr hws hrs hord hn
  have hle : n ≤ s.pending := Nat.le.intro (Nat.add_comm _ _ ▸ hpending)
  have hrest : (s.advanceRead n).pending = s.pending - n := Nat.eq_sub_of_add_eq hpending
  rw [State.queue_split hle, List.drop_left' (hs.length_front hle), ← hrest]
  rfl

/-- The bytes of an outstanding offer, or of a part of it, are the front of the queue (R151). -/
theorem State.Inv.take_queue_of_readRun (hs : s.Inv) (hdrn : s.drnState = .offer) {n : Nat} (hn : n ≤ s.offerLen)
    {bytes : List Byte} (hread : s.readRun s.offerOff n = .ok bytes) : s.fifo.queue.take n = bytes := by
  have ⟨_, _, _, _, hoffer, _⟩ := hs
  obtain ⟨hoff, -, hseen, -⟩ := hoffer hdrn
  have hpending := s.pending_eq hs
  have hle : n ≤ s.pending := by omega
  rw [State.queue_split hle, List.take_left' (hs.length_front hle), ← hoff]
  exact State.cellsFrom_of_readRun hread

/-! ## The move of each step -/

/-- The move of each agent's step, with the guard it is made under (R110, R115, R141, R142, R175, R283). -/
inductive GuardedMove (s : State) : AgentStep → FifoMove → Prop where
  | stay (e : AgentStep) : GuardedMove s e .stay
  /-- PUSH. -/
  | push (word : Word) (d : Byte) : s.fetchWord = some word → decode word = .ok (.push d) → s.capState = .idle →
      (s.w + 1) % s.cap ≠ s.rSync → GuardedMove s .issue (.put d)
  /-- ADVRD. -/
  | advance (word : Word) (n : BitVec 16) : s.fetchWord = some word → decode word = .ok (.advrd n) →
      s.drnState = .idle → n.toNat ≤ s.pendingC → GuardedMove s .issue (.discard n.toNat)
  /-- Intake of one byte. -/
  | intake (b : Byte) (rest : List Byte) : s.capState = .loop → s.rxQueue = b :: rest →
      (s.w + 1) % s.cap ≠ s.rSync → GuardedMove s .intake (.put b)
  /-- A full answer. -/
  | answerFull (k : Word) : s.drnState = .offer → k.toNat = s.offerLen →
      GuardedMove s (.answer k) (.commit s.offerLen)
  /-- A short answer. -/
  | answerShort (k : Word) : s.drnState = .offer → k.toNat < s.offerLen →
      GuardedMove s (.answer k) (.offerTaken k.toNat)
  | reset : GuardedMove s .reset .clear

theorem State.issueMove_guarded (s : State) : GuardedMove s .issue s.issueMove := by
  unfold State.issueMove
  split
  · exact .stay _
  · rename_i word hfetch
    split
    · rename_i d hdecode
      split
      · rename_i hroom
        exact .push word d hfetch hdecode hroom.1 hroom.2
      · exact .stay _
    · rename_i n hdecode
      split
      · rename_i hseen
        exact .advance word n hfetch hdecode hseen.1 hseen.2
      · exact .stay _
    · exact .stay _

/-- `State.fifoMove` names a move only under its guard. -/
theorem State.fifoMove_guarded (s : State) (e : AgentStep) : GuardedMove s e (s.fifoMove e) := by
  cases e with
  | issue => exact s.issueMove_guarded
  | intake =>
    simp only [State.fifoMove]
    split
    · rename_i b rest hcap hqueue
      split
      · exact .stay _
      · exact .intake b rest hcap hqueue ‹_›
    · exact .stay _
  | answer k =>
    simp only [State.fifoMove]
    split
    · split
      · exact .answerFull k ‹_› ‹_›
      · split
        · exact .answerShort k ‹_› ‹_›
        · exact .stay _
    · exact .stay _
  | reset => exact .reset
  | _ => exact .stay _

/-! ## The steps that make a move -/

theorem runStep_issue_of_decode {word : Word} {i : Instr} (hfetch : s.fetchWord = some word)
    (hdecode : decode word = .ok i) : runStep .issue s = exec i s := by
  simp [runStep, issueStep, hfetch, hdecode]

/-- PUSH with no episode running, into a ring that is not full (R110). -/
theorem exec_push_of_room (hcap : s.capState = .idle) (hfull : (s.w + 1) % s.cap ≠ s.rSync) (hw : s.w < s.cap)
    (d : Byte) : exec (.push d) s = .next (s.pushed d).issued := by
  simp [exec, execPush, State.held, s.capBusy_eq_false.2 hcap, s.fullP_eq_false.2 hfull,
    s.pushByte_of_lt d hw, Except.map, finish, State.pushed]

/-- ADVRD with no offer outstanding, over bytes the consumer sees (R115). -/
theorem exec_advrd_of_le {n : BitVec 16} (hdrn : s.drnState = .idle) (hn : n.toNat ≤ s.pendingC) :
    exec (.advrd n) s = .next (s.advanceRead n.toNat).issued := by
  simp [exec, execAdvrd, State.held, s.drnBusy_eq_false.2 hdrn, countOf, Nat.not_lt.2 hn]

/-- Intake of a byte into a ring that is not full (R175). -/
theorem runStep_intake_of_room {b : Byte} {rest : List Byte} (hcap : s.capState = .loop)
    (hqueue : s.rxQueue = b :: rest) (hfull : (s.w + 1) % s.cap ≠ s.rSync) (hw : s.w < s.cap) :
    runStep .intake s = .next { s.pushed b with rxQueue := rest } := by
  change intakeStep s = _
  unfold intakeStep
  rw [if_pos hcap, hqueue]
  dsimp only
  rw [if_neg (mt s.fullP_iff.1 hfull)]
  exact congrArg finish (State.pushByte_of_lt { s with rxQueue := rest } b hw)

/-- An answer within the offer (R141, R142). -/
theorem runStep_answer_of_le {k : Word} {bytes : List Byte} (hdrn : s.drnState = .offer) (hk : k.toNat ≤ s.offerLen)
    (hread : s.readRun s.offerOff k.toNat = .ok bytes) : runStep (.answer k) s =
      .next (if k.toNat = s.offerLen then (s.deliver bytes).advanceRead s.offerLen else s.deliver bytes) := by
  simp only [runStep, answerStep, s.drnBusy_iff.2 hdrn, if_true, Nat.not_lt.2 hk, if_false, hread]
  split <;> rfl

/-! ## Every step -/

/-- A step whose move is none leaves the queue and the bytes delivered alone: the changes that touch them are made under
the guards of a move. -/
theorem Change.fifo_eq_of_stay (h : Change s e t) (hstay : s.fifoMove e = .stay) : t.fifo = s.fifo := by
  cases h with
  | push word d hfetch hdecode hcap hfull =>
    rw [State.fetchWord] at hfetch
    simp [State.fifoMove, State.issueMove, hfetch, hdecode, hcap, hfull] at hstay
  | advance word n hfetch hdecode hdrn hn =>
    rw [State.fetchWord] at hfetch
    rw [State.pendingC] at hn
    simp [State.fifoMove, State.issueMove, hfetch, hdecode, hdrn, hn] at hstay
  | intakePush b rest hcap hqueue hfull => simp [State.fifoMove, hcap, hqueue, hfull] at hstay
  | answerFull k bytes hdrn hfull => simp [State.fifoMove, hdrn, hfull] at hstay
  | answerShort k bytes hdrn hshort => simp [State.fifoMove, hdrn, hshort, hshort.ne] at hstay
  | reset => cases hstay
  | _ => exact State.fifo_congr (by simp) (by simp) (by simp) (by simp) (by simp)

/-- Every step makes its move on the FIFO. -/
theorem runStep_fifo (hs : s.Inv) (h : runStep e s = .next t) : t.fifo = FifoMove.apply (s.fifoMove e) s.fifo := by
  have ⟨hlegal, ⟨hw, _⟩, _, _, hoffer, _⟩ := hs
  have hguarded := s.fifoMove_guarded e
  generalize hmove : s.fifoMove e = move at hguarded
  cases hguarded with
  | stay => exact (runStep_change e s t h).fifo_eq_of_stay hmove
  | push word d hfetch hdecode hcap hfull =>
    rw [runStep_issue_of_decode hfetch hdecode, exec_push_of_room hcap hfull hw, Host.Outcome.next.injEq] at h
    subst h
    exact hs.fifo_pushed hfull d
  | advance word n hfetch hdecode hdrn hn =>
    rw [runStep_issue_of_decode hfetch hdecode, exec_advrd_of_le hdrn hn, Host.Outcome.next.injEq] at h
    subst h
    exact congrArg (fun q => (⟨q, s.delivered⟩ : Fifo)) (hs.queue_advanceRead hn)
  | intake b rest hcap hqueue hfull =>
    rw [runStep_intake_of_room hcap hqueue hfull hw, Host.Outcome.next.injEq] at h
    subst h
    exact hs.fifo_pushed hfull b
  | answerFull k hdrn hfull =>
    obtain ⟨bytes, hread⟩ := hs.readRun_offer hdrn hfull.le
    have htake := hs.take_queue_of_readRun hdrn hfull.le hread
    obtain ⟨-, -, hseen, -⟩ := hoffer hdrn
    rw [runStep_answer_of_le hdrn hfull.le hread, if_pos hfull, Host.Outcome.next.injEq] at h
    subst h
    rw [FifoMove.apply, ← hs.queue_advanceRead hseen, ← hfull, htake]
    rfl
  | answerShort k hdrn hshort =>
    obtain ⟨bytes, hread⟩ := hs.readRun_offer hdrn hshort.le
    have htake := hs.take_queue_of_readRun hdrn hshort.le hread
    rw [runStep_answer_of_le hdrn hshort.le hread, if_neg hshort.ne, Host.Outcome.next.injEq] at h
    subst h
    rw [FifoMove.apply, htake]
    rfl
  | reset =>
    cases h
    have hempty : ringDist s.cfg.capacity 0 0 = 0 := ringDist_self _ _ (capacity_pos _)
    simp [FifoMove.apply, State.fifo, State.pending, State.launch, hempty]

end Sys2Proof.Machine

open Sys2Proof Sys2Proof.Machine

/-- Settles O46: the move of every step, and the queue's length from the invariant of the next state. -/
theorem theRingIsAFifo : Obligations.TheRingIsAFifo := by
  intro e s t hs hstep
  have ht : t.Inv := hs.next hstep
  have hcfg : t.cfg = s.cfg := (hstep ▸ runStep_answersIn e s).cfg_eq
  have hlength : t.fifo.queue.length = ringDist (2 ^ s.cfg.k) t.r t.w := hcfg ▸ ht.length_queue
  refine ⟨runStep_fifo hs hstep, hlength, ?_⟩
  rw [hlength]
  exact Nat.le_sub_one_of_lt (ringDist_lt _ _ _ (Nat.two_pow_pos _))
end

section
/-! SUPPORT. The decoder and the encoder through the row of an operation (`30_encoding.md` R81, R89, R92): a word
decodes to an operation exactly when the operation is well formed and its row is the word's opcode and operand bits. -/

namespace Sys2Proof.Laws

/-! ## The row of a word -/

/-- The major opcode of a word and its bits 27:0 (R80). -/
def wordRow (word : Word) : Nat × Nat := (word.toNat / 2 ^ 28, word.toNat % 2 ^ 28)

theorem encode_row (i : Instr) : OpcodeRow.Statement i := by
  cases i with
  | avail => exact OpcodeRow.avail
  | isfull => exact OpcodeRow.isfull
  | push data => exact OpcodeRow.push data
  | advrd n => exact OpcodeRow.advrd n
  | drainTick => exact OpcodeRow.drainTick
  | drainDone => exact OpcodeRow.drainDone
  | capture => exact OpcodeRow.capture
  | setline dbits baud => exact OpcodeRow.setline dbits baud
  | getbaud => exact OpcodeRow.getbaud
  | fence => exact OpcodeRow.fence
  | rdreg regno => exact OpcodeRow.rdreg regno

/-- A word encodes an operation exactly when the two have one row. -/
theorem encode_eq_iff (i : Instr) (word : Word) : encode i = word ↔ rowOf i = wordRow word := by
  obtain ⟨hsum, hlt⟩ := encode_row i
  rw [← BitVec.toNat_inj, hsum, wordRow, Prod.ext_iff]
  dsimp only
  omega

/-! ## What each format decodes to (R82 to R88) -/

/-- An operand in the low `n` bits, with zeros above it, is the number in bits 27:0. -/
theorem operand_iff (word : Word) {n : Nat} (hn : n ≤ 28) (x : BitVec n) :
    word.toNat / 2 ^ n % 2 ^ (28 - n) = 0 ∧ word.extractLsb' 0 n = x ↔ x.toNat = (wordRow word).2 := by
  have hsplit : (wordRow word).2 = word.toNat % 2 ^ n + 2 ^ n * (word.toNat / 2 ^ n % 2 ^ (28 - n)) := by
    rw [← Nat.mod_mul, ← Nat.pow_add, Nat.add_sub_cancel' hn]; rfl
  rw [← BitVec.toNat_inj, field_toNat, Nat.pow_zero, Nat.div_one, hsplit]
  constructor
  · rintro ⟨hzero, hlow⟩
    rw [hzero, hlow, Nat.mul_zero, Nat.add_zero]
  · intro hrow
    have hlt := x.isLt
    have hzero : word.toNat / 2 ^ n % 2 ^ (28 - n) = 0 := by
      by_contra hpos
      have := Nat.le_mul_of_pos_right (2 ^ n) (Nat.pos_of_ne_zero hpos)
      omega
    rw [hzero, Nat.mul_zero, Nat.add_zero] at hrow
    exact ⟨hzero, hrow.symm⟩

/-- A format whose only field is its low `n` bits (R83, R84, R85). -/
theorem reservedZero_operand_ok (word : Word) {n : Nat} (hn : n ≤ 28) (make : BitVec n → Instr) (j : Instr) :
    reservedZero word n (make (word.extractLsb' 0 n)) = .ok j ↔ ∃ x, make x = j ∧ x.toNat = (wordRow word).2 := by
  rw [reservedZero_ok]
  constructor
  · rintro ⟨hzero, hmake⟩
    exact ⟨_, hmake, (operand_iff word hn _).1 ⟨hzero, rfl⟩⟩
  · rintro ⟨x, hmake, hrow⟩
    obtain ⟨hzero, rfl⟩ := (operand_iff word hn x).2 hrow
    exact ⟨hzero, hmake⟩

theorem decodeZ_ok (word : Word) (i j : Instr) : decodeZ word i = .ok j ↔ i = j ∧ 0 = (wordRow word).2 := by
  rw [decodeZ, reservedZero_ok, Nat.pow_zero, Nat.div_one, and_comm, eq_comm (a := 0)]
  rfl

theorem decodeB_ok (word : Word) (j : Instr) :
    decodeB word = .ok j ↔ ∃ data, .push data = j ∧ data.toNat = (wordRow word).2 :=
  reservedZero_operand_ok word (by omega) .push j

theorem decodeN_ok (word : Word) (j : Instr) :
    decodeN word = .ok j ↔ ∃ n, .advrd n = j ∧ n.toNat = (wordRow word).2 :=
  reservedZero_operand_ok word (by omega) .advrd j

theorem decodeS_ok (word : Word) (j : Instr) :
    decodeS word = .ok j ↔ .drainTick = j ∧ 0 = (wordRow word).2 ∨ .drainDone = j ∧ 1 = (wordRow word).2 := by
  rw [decodeS, reservedZero_operand_ok word (by omega) (fun src => if src = 0 then .drainTick else .drainDone)]
  constructor
  · rintro ⟨src, hsrc, hrow⟩
    rcases src.eq_zero_or_eq_one with rfl | rfl
    · exact .inl ⟨hsrc, hrow⟩
    · exact .inr ⟨hsrc, hrow⟩
  · rintro (⟨hsrc, hrow⟩ | ⟨hsrc, hrow⟩)
    · exact ⟨0, hsrc, hrow⟩
    · exact ⟨1, hsrc, hrow⟩

theorem decodeL_ok (word : Word) (j : Instr) : decodeL word = .ok j ↔
    ∃ dbits baud, .setline dbits baud = j ∧ 2 ^ 24 * dbits.toNat + baud.toNat = (wordRow word).2 := by
  rw [decodeL, wordRow, Except.ok.injEq]
  constructor
  · rintro rfl
    exact ⟨_, _, rfl, by rw [field_toNat, field_toNat]; omega⟩
  · rintro ⟨dbits, baud, rfl, hrow⟩
    have := dbits.isLt
    have := baud.isLt
    congr 1 <;> apply BitVec.eq_of_toNat_eq <;> rw [field_toNat] <;> omega

theorem decodeG_ok (word : Word) (j : Instr) : decodeG word = .ok j ↔
    ∃ regno, (regno.toNat ≤ 6 ∧ .rdreg regno = j) ∧ regno.toNat = (wordRow word).2 := by
  rw [decodeG]
  constructor
  · intro h
    split at h
    · rename_i hzero
      split at h
      · rename_i hregno
        exact ⟨_, ⟨hregno, Except.ok.inj h⟩, (operand_iff word (by omega) _).1 ⟨(field_eq_zero _ _ _).1 hzero, rfl⟩⟩
      · cases h
    · cases h
  · rintro ⟨regno, ⟨hregno, rfl⟩, hrow⟩
    obtain ⟨hzero, rfl⟩ := (operand_iff word (by omega) regno).2 hrow
    rw [if_pos ((field_eq_zero _ _ _).2 hzero), if_pos hregno]

/-! ## What a word decodes to (R92) -/

/-- What a word decodes to is well formed and has the word's row. -/
theorem wf_and_row_of_decode {word : Word} {i : Instr} (h : decode word = .ok i) :
    i.wf = true ∧ rowOf i = wordRow word := by
  unfold decode at h
  rw [opcode_toNat] at h
  split at h
  case h_3 hopc =>
    obtain ⟨data, rfl, hrow⟩ := (decodeB_ok word i).1 h
    exact ⟨rfl, Prod.ext hopc.symm hrow⟩
  case h_4 hopc =>
    obtain ⟨n, rfl, hrow⟩ := (decodeN_ok word i).1 h
    exact ⟨rfl, Prod.ext hopc.symm hrow⟩
  case h_5 hopc =>
    obtain ⟨rfl, hrow⟩ | ⟨rfl, hrow⟩ := (decodeS_ok word i).1 h
    · exact ⟨rfl, Prod.ext hopc.symm hrow⟩
    · exact ⟨rfl, Prod.ext hopc.symm hrow⟩
  case h_7 hopc =>
    obtain ⟨dbits, baud, rfl, hrow⟩ := (decodeL_ok word i).1 h
    exact ⟨rfl, Prod.ext hopc.symm hrow⟩
  case h_10 hopc =>
    obtain ⟨regno, ⟨hregno, rfl⟩, hrow⟩ := (decodeG_ok word i).1 h
    exact ⟨decide_eq_true hregno, Prod.ext hopc.symm hrow⟩
  case h_11 => cases h
  all_goals
    rename_i hopc
    obtain ⟨rfl, hrow⟩ := (decodeZ_ok word _ i).1 h
    exact ⟨rfl, Prod.ext hopc.symm hrow⟩

/-- A well-formed operation is what every word of its row decodes to. -/
theorem decode_of_row {word : Word} {i : Instr} (hwf : i.wf = true) (h : rowOf i = wordRow word) :
    decode word = .ok i := by
  obtain ⟨hopc, hrow⟩ := Prod.ext_iff.1 h
  unfold decode
  rw [opcode_toNat, show word.toNat / 2 ^ 28 = (rowOf i).1 from hopc.symm]
  cases i with
  | push data => exact (decodeB_ok word _).2 ⟨data, rfl, hrow⟩
  | advrd n => exact (decodeN_ok word _).2 ⟨n, rfl, hrow⟩
  | drainTick => exact (decodeS_ok word _).2 (.inl ⟨rfl, hrow⟩)
  | drainDone => exact (decodeS_ok word _).2 (.inr ⟨rfl, hrow⟩)
  | setline dbits baud => exact (decodeL_ok word _).2 ⟨dbits, baud, rfl, hrow⟩
  | rdreg regno => exact (decodeG_ok word _).2 ⟨regno, ⟨of_decide_eq_true hwf, rfl⟩, hrow⟩
  | avail | isfull | capture | getbaud | fence => exact (decodeZ_ok word _ _).2 ⟨rfl, hrow⟩

theorem decode_eq_ok_iff (word : Word) (i : Instr) : decode word = .ok i ↔ i.wf = true ∧ encode i = word := by
  rw [encode_eq_iff]
  exact ⟨wf_and_row_of_decode, fun ⟨hwf, hrow⟩ => decode_of_row hwf hrow⟩

end Sys2Proof.Laws

open Sys2Proof Sys2Proof.Laws

/-- Settles O1, by the row that the two share. -/
theorem decodeOfEncode : Obligations.DecodeOfEncode :=
  fun i hwf => (decode_eq_ok_iff _ i).2 ⟨hwf, rfl⟩

/-- Settles O2, by the row that the two share. -/
theorem encodeOfDecode : Obligations.EncodeOfDecode :=
  fun word i h => (decode_eq_ok_iff word i).1 h
end

section
/-! SUPPORT. The rows a word can have (`30_encoding.md` R81, R88 to R90), the masks that select them (R89), and what
issuing a word does to the fault record (R90, `60_exceptions.md` R246). -/

namespace Sys2Proof.Laws

/-! ## The legal rows -/

/-- The rows of the well-formed operations: an assigned opcode, and below it nothing outside the operand fields. -/
def RowInRange (row : Nat × Nat) : Prop :=
  (row.1 = 0x1 ∨ row.1 = 0x2 ∨ row.1 = 0x6 ∨ row.1 = 0x8 ∨ row.1 = 0x9) ∧ row.2 = 0
    ∨ row.1 = 0x3 ∧ row.2 < 2 ^ 8 ∨ row.1 = 0x4 ∧ row.2 < 2 ^ 16 ∨ row.1 = 0x5 ∧ row.2 < 2
    ∨ row.1 = 0x7 ∧ row.2 < 2 ^ 28 ∨ row.1 = 0xA ∧ row.2 ≤ 6

theorem rowOf_inRange {i : Instr} (hwf : i.wf = true) : RowInRange (rowOf i) := by
  cases i with
  | push data => simpa [RowInRange, rowOf] using data.isLt
  | advrd n => simpa [RowInRange, rowOf] using n.isLt
  | setline dbits baud =>
    have hlt : 2 ^ 24 * dbits.toNat + baud.toNat < 2 ^ 28 := by
      have := dbits.isLt
      have := baud.isLt
      omega
    simpa [RowInRange, rowOf] using hlt
  | rdreg regno => simpa [RowInRange, rowOf, Instr.wf] using hwf
  | avail | isfull | drainTick | drainDone | capture | getbaud | fence => simp [RowInRange, rowOf]

/-- Every legal row is the row of a well-formed operation. -/
theorem exists_rowOf {row : Nat × Nat} (h : RowInRange row) : ∃ i, i.wf = true ∧ rowOf i = row := by
  obtain ⟨opc, n⟩ := row
  obtain ⟨rfl | rfl | rfl | rfl | rfl, rfl⟩ | ⟨rfl, hn⟩ | ⟨rfl, hn⟩ | ⟨rfl, hn⟩ | ⟨rfl, hn⟩ | ⟨rfl, hn⟩ := h
  · exact ⟨.avail, rfl, rfl⟩
  · exact ⟨.isfull, rfl, rfl⟩
  · exact ⟨.capture, rfl, rfl⟩
  · exact ⟨.getbaud, rfl, rfl⟩
  · exact ⟨.fence, rfl, rfl⟩
  · exact ⟨.push (BitVec.ofNat 8 n), rfl, by rw [rowOf, BitVec.toNat_ofNat, Nat.mod_eq_of_lt hn]⟩
  · exact ⟨.advrd (BitVec.ofNat 16 n), rfl, by rw [rowOf, BitVec.toNat_ofNat, Nat.mod_eq_of_lt hn]⟩
  · obtain rfl | rfl : n = 0 ∨ n = 1 := by omega
    · exact ⟨.drainTick, rfl, rfl⟩
    · exact ⟨.drainDone, rfl, rfl⟩
  · refine ⟨.setline (BitVec.ofNat 4 (n / 2 ^ 24)) (BitVec.ofNat 24 n), rfl, ?_⟩
    rw [rowOf, BitVec.toNat_ofNat, BitVec.toNat_ofNat, Prod.mk.injEq]
    omega
  · have hregno : (BitVec.ofNat 4 n).toNat = n := by rw [BitVec.toNat_ofNat]; omega
    exact ⟨.rdreg (BitVec.ofNat 4 n), by simpa [Instr.wf, hregno] using hn, by rw [rowOf, hregno]⟩

/-- The words that decode to an operation are those of the legal rows. -/
theorem exists_decode_iff (word : Word) : (∃ i, decode word = .ok i) ↔ RowInRange (wordRow word) := by
  constructor
  · rintro ⟨i, h⟩
    obtain ⟨hwf, hrow⟩ := wf_and_row_of_decode h
    exact hrow ▸ rowOf_inRange hwf
  · intro h
    obtain ⟨i, hwf, hrow⟩ := exists_rowOf h
    exact ⟨i, decode_of_row hwf hrow⟩

/-! ## The masks of the opcode map -/

/-- A mask that keeps all but the low `n` bits compares the parts above them. -/
theorem topMask_eq_iff (word c : Word) (n : Nat) :
    word &&& BitVec.allOnes 32 <<< n = c ↔ word.toNat / 2 ^ n * 2 ^ n = c.toNat := by
  have hle := Nat.div_mul_le_self word.toNat (2 ^ n)
  rw [← BitVec.shiftLeft_ushiftRight, ← BitVec.toNat_inj, BitVec.toNat_shiftLeft, BitVec.toNat_ushiftRight,
    Nat.shiftLeft_eq, Nat.shiftRight_eq_div_pow, Nat.mod_eq_of_lt (by omega)]

/-- A mask of all ones selects the one word of an operation without operand bits. -/
theorem wholeWord_selects (word : Word) {i : Instr} (hwf : i.wf = true) :
    word &&& 0xFFFFFFFF#32 = encode i ↔ decode word = .ok i := by
  rw [decode_eq_ok_iff, and_iff_right hwf, eq_comm (a := encode i)]
  exact Eq.congr_left (BitVec.and_allOnes (x := word))

/-- A mask above the `n` operand bits, matched with the opcode alone, selects the encoding with the word's own operand
bits. -/
theorem topMask_selects (word : Word) {n c : Nat} (hn : n ≤ 28) (hc : c < 16) {i : Instr}
    (hrow : rowOf i = (c, word.toNat % 2 ^ n)) :
    word &&& BitVec.allOnes 32 <<< n = BitVec.ofNat 32 (2 ^ 28 * c) ↔ encode i = word := by
  have hsplit := Nat.div_add_mod' word.toNat (2 ^ n)
  have hlow : word.toNat % 2 ^ n < 2 ^ 28 :=
    Nat.lt_of_lt_of_le (Nat.mod_lt _ (Nat.two_pow_pos n)) (Nat.pow_le_pow_right (by omega) hn)
  rw [topMask_eq_iff, BitVec.toNat_ofNat, Nat.mod_eq_of_lt (by omega), encode_eq_iff, hrow, wordRow, Prod.mk.injEq]
  omega

theorem push_selects (word : Word) :
    word &&& 0xFFFFFF00#32 = 0x30000000#32 ↔ decode word = .ok (.push (word.extractLsb' 0 8)) := by
  rw [decode_eq_ok_iff, and_iff_right (show Instr.wf _ = true from rfl)]
  refine topMask_selects word (n := 8) (c := 0x3) (by omega) (by omega) ?_
  rw [rowOf, field_toNat, Nat.pow_zero, Nat.div_one]

theorem advrd_selects (word : Word) :
    word &&& 0xFFFF0000#32 = 0x40000000#32 ↔ decode word = .ok (.advrd (word.extractLsb' 0 16)) := by
  rw [decode_eq_ok_iff, and_iff_right (show Instr.wf _ = true from rfl)]
  refine topMask_selects word (n := 16) (c := 0x4) (by omega) (by omega) ?_
  rw [rowOf, field_toNat, Nat.pow_zero, Nat.div_one]

theorem setline_selects (word : Word) : word &&& 0xF0000000#32 = 0x70000000#32 ↔
    decode word = .ok (.setline (word.extractLsb' 24 4) (word.extractLsb' 0 24)) := by
  rw [decode_eq_ok_iff, and_iff_right (show Instr.wf _ = true from rfl)]
  refine topMask_selects word (n := 28) (c := 0x7) (by omega) (by omega) ?_
  rw [rowOf, field_toNat, field_toNat, Prod.mk.injEq]
  omega

theorem rdreg_selects (word : Word) : word &&& 0xFFFFFFF0#32 = 0xA0000000#32 ∧ (word.extractLsb' 0 4).toNat ≤ 6 ↔
    decode word = .ok (.rdreg (word.extractLsb' 0 4)) := by
  rw [decode_eq_ok_iff, Instr.wf, decide_eq_true_iff, and_comm]
  refine and_congr_right fun _ => topMask_selects word (n := 4) (c := 0xA) (by omega) (by omega) ?_
  rw [rowOf, field_toNat, Nat.pow_zero, Nat.div_one]

/-- The illegal words are those of the other rows (R90). -/
theorem not_decodes_iff (word : Word) : (∀ i, decode word ≠ .ok i) ↔ ¬ RowInRange (wordRow word) := by
  rw [← exists_decode_iff, not_exists]

end Sys2Proof.Laws

namespace Sys2Proof.Machine

/-! ## The issue of a word -/

theorem runStep_issue_of_not_decodes {s : State} {word : Word} (hfetch : s.fetchWord = some word)
    (h : ∀ i, decode word ≠ .ok i) : runStep .issue s = .next s.illegalWord := by
  simp only [runStep, issueStep, hfetch]
  split
  · rfl
  · rename_i i hdecode
    exact absurd hdecode (h i)

/-- An operation leaves the fault record's cause alone, or raises a fault of its own. -/
def CauseKeptOrOwn (s t : State) : Prop :=
  t.faultCause = s.faultCause ∨ ∃ c, c ≠ .illegalOp ∧ t = (s.raiseFault c).issued

/-- The one cause with code 1 is ILLEGAL_OP (R242). -/
theorem CauseKeptOrOwn.ne_one {s t : State} (h : CauseKeptOrOwn s t) (hs : s.faultCause ≠ 1) : t.faultCause ≠ 1 := by
  obtain hkept | ⟨c, hc, rfl⟩ := h
  · rwa [hkept]
  · rw [State.issued_faultCause, State.raiseFault_faultCause]
    split
    · cases c with
      | illegalOp => exact absurd rfl hc
      | pushFull | advanceOverrun | transportOveraccept | lineUnset => decide
    · exact hs

theorem execPush_causeKeptOrOwn {s t : State} {d : Byte} (h : execPush d s = .next t) : CauseKeptOrOwn s t := by
  unfold execPush at h
  split at h
  · cases h; exact .inl rfl
  · split at h
    · cases h; exact .inr ⟨.pushFull, by decide, rfl⟩
    · rw [finish_next] at h
      cases hp : s.pushByte d with
      | error f => simp [hp, Except.map] at h
      | ok u =>
        obtain ⟨-, rfl⟩ := (s.pushByte_ok u d).1 hp
        cases hp ▸ h
        exact .inl rfl

/-- Only a register number that no decoded word holds makes an operation record ILLEGAL_OP (R88, log entry 13). -/
theorem exec_causeKeptOrOwn {s t : State} {i : Instr} (hwf : i.wf = true) (h : exec i s = .next t) :
    CauseKeptOrOwn s t := by
  cases i with
  | push d => exact execPush_causeKeptOrOwn h
  | advrd n =>
    simp only [exec, execAdvrd] at h
    split at h
    · cases h; exact .inl rfl
    · split at h <;> cases h
      · exact .inr ⟨.advanceOverrun, by decide, rfl⟩
      · exact .inl rfl
  | capture =>
    simp only [exec, execCapture] at h
    split at h <;> cases h <;> exact .inl rfl
  | getbaud =>
    simp only [exec, execGetbaud] at h
    split at h <;> cases h
    · exact .inl rfl
    · exact .inr ⟨.lineUnset, by decide, rfl⟩
  | fence =>
    simp only [exec, execFence] at h
    split at h <;> cases h <;> exact .inl rfl
  | rdreg regno =>
    cases hreg : regOfNumber regno with
    | some reg =>
      rw [exec_rdreg_of_some s hreg] at h
      cases h; exact .inl rfl
    | none =>
      have habove := (regOfNumber_eq_none regno).1 hreg
      have hwithin : regno.toNat ≤ 6 := of_decide_eq_true hwf
      omega
  | avail | isfull | drainTick | drainDone | setline => cases h; exact .inl rfl

end Sys2Proof.Machine

open Sys2Proof Sys2Proof.Machine Sys2Proof.Laws

/-- Settles O3: a full mask selects one word, a mask above the operand bits the encoding with those bits, and an opcode
without a row is the opcode of no operation. -/
theorem opcodeMapSelectsRows : Obligations.OpcodeMapSelectsRows := by
  intro word
  refine ⟨wholeWord_selects word (i := .avail) rfl, wholeWord_selects word (i := .isfull) rfl, push_selects word,
    advrd_selects word, wholeWord_selects word (i := .drainTick) rfl, wholeWord_selects word (i := .drainDone) rfl,
    wholeWord_selects word (i := .capture) rfl, setline_selects word, wholeWord_selects word (i := .getbaud) rfl,
    wholeWord_selects word (i := .fence) rfl, rdreg_selects word, fun hreserved i hi => ?_⟩
  have hrange := (exists_decode_iff word).1 ⟨i, hi⟩
  simp only [RowInRange, wordRow] at hrange
  rw [opcode_toNat] at hreserved
  omega

/-- Settles O26: the illegal words are those outside the legal rows, and only their issue records the cause. -/
theorem illegalWordsRecordIllegalOp : Obligations.IllegalWordsRecordIllegalOp := by
  refine ⟨fun word => ?_, fun s word hfetch h => ?_, fun s t word i hfetch hdecode hs h => ?_, fun i => ?_⟩
  · have hlt := word.isLt
    rw [not_decodes_iff]
    simp only [RowInRange, wordRow, List.mem_cons, List.not_mem_nil, or_false]
    omega
  · exact runStep_issue_of_not_decodes hfetch h
  · rw [runStep_issue_of_decode hfetch hdecode] at h
    exact (exec_causeKeptOrOwn (wf_and_row_of_decode hdecode).1 h).ne_one hs
  · rw [show decode 0#32 = .error .reservedOpcode by decide]
    nofun
end

section
/-! SUPPORT. A word as four bytes (`30_encoding.md` R94). -/

namespace Sys2Proof

/-- The bytes of a word weigh 1, 2 ^ 8, 2 ^ 16 and 2 ^ 24. -/
theorem toNat_eq_bytes (word : Word) : word.toNat = (word.extractLsb' 0 8).toNat + 2 ^ 8 * (word.extractLsb' 8 8).toNat
    + 2 ^ 16 * (word.extractLsb' 16 8).toNat + 2 ^ 24 * (word.extractLsb' 24 8).toNat := by
  have := word.isLt
  simp only [field_toNat]
  omega

/-- A byte in its place within a word. -/
theorem byte_shiftLeft_toNat (b : Byte) {n : Nat} (hn : n ≤ 24) : (b.setWidth 32 <<< n).toNat = 2 ^ n * b.toNat := by
  have hlt : 2 ^ n * b.toNat < 2 ^ 32 :=
    calc 2 ^ n * b.toNat < 2 ^ n * 2 ^ 8 := Nat.mul_lt_mul_of_pos_left b.isLt (Nat.two_pow_pos n)
      _ ≤ 2 ^ 24 * 2 ^ 8 := Nat.mul_le_mul_right _ (Nat.pow_le_pow_right (by omega) hn)
  have hb : b.toNat < 2 ^ 32 := b.isLt.trans (by decide)
  rw [BitVec.toNat_shiftLeft, BitVec.toNat_setWidth, Nat.mod_eq_of_lt hb, Nat.shiftLeft_eq, Nat.mul_comm,
    Nat.mod_eq_of_lt hlt]

/-- The word of four bytes is their weighted sum. -/
theorem wordOfBytes_toNat (b0 b1 b2 b3 : Byte) :
    (wordOfBytes b0 b1 b2 b3).toNat = b0.toNat + 2 ^ 8 * b1.toNat + 2 ^ 16 * b2.toNat + 2 ^ 24 * b3.toNat := by
  have h0 := b0.isLt
  have h1 := b1.isLt
  have h2 := b2.isLt
  have join1 := or_toNat_of_lt b1.toNat b0.toNat 8 h0
  have join2 := or_toNat_of_lt b2.toNat (2 ^ 8 * b1.toNat + b0.toNat) 16 (by omega)
  have join3 := or_toNat_of_lt b3.toNat (2 ^ 16 * b2.toNat + (2 ^ 8 * b1.toNat + b0.toNat)) 24 (by omega)
  rw [wordOfBytes, BitVec.toNat_or, BitVec.toNat_or, BitVec.toNat_or, byte_shiftLeft_toNat b1 (by omega),
    byte_shiftLeft_toNat b2 (by omega), byte_shiftLeft_toNat b3 (by omega), BitVec.toNat_setWidth,
    Nat.mod_eq_of_lt (by omega), Nat.or_comm b0.toNat, join1, Nat.or_comm _ (2 ^ 16 * _), join2, Nat.or_comm, join3]
  omega

/-- The bytes of a word give it back. -/
theorem wordOfBytes_bytes (word : Word) : wordOfBytes (word.extractLsb' 0 8) (word.extractLsb' 8 8)
    (word.extractLsb' 16 8) (word.extractLsb' 24 8) = word :=
  BitVec.eq_of_toNat_eq (by rw [wordOfBytes_toNat, ← toNat_eq_bytes])

theorem decodeBytes_of_ok {word : Word} {i : Instr} (h : decode word = .ok i) (rest : List Byte) :
    decodeBytes (bytesOfWord word ++ rest) = .ok (i, rest) := by
  simp only [bytesOfWord, List.cons_append, List.nil_append, decodeBytes, wordOfBytes_bytes, h]

theorem decodeBytes_of_error {word : Word} {e : DecodeError} (h : decode word = .error e) (rest : List Byte) :
    decodeBytes (bytesOfWord word ++ rest) = .error e := by
  simp only [bytesOfWord, List.cons_append, List.nil_append, decodeBytes, wordOfBytes_bytes, h]

end Sys2Proof

open Sys2Proof

/-- Settles O5: the four bytes in order are the word again. -/
theorem wordsTravelLittleEndian : Obligations.WordsTravelLittleEndian :=
  fun word rest => ⟨⟨_, _, _, _, rfl, toNat_eq_bytes word⟩, fun _ h => decodeBytes_of_ok h rest,
    fun _ h => decodeBytes_of_error h rest⟩
end

section
/-! SUPPORT. What the assembler accepts (`30_encoding.md` R95, R96): operands in range, so well-formed operations. -/

namespace Sys2Proof.Machine

theorem inRange_ok (n bound v : Nat) : inRange n bound = .ok v ↔ n < bound ∧ n = v := by
  unfold inRange
  split <;> simp [*]

/-- PUSHS of bytes in range is one PUSH for each, in order. -/
theorem assemblePushes_of_bytes (bytes : List Nat) (h : ∀ v, v ∈ bytes → v < 256) :
    assemblePushes bytes = .ok (bytes.map fun v => .push (BitVec.ofNat 8 v)) := by
  induction bytes with
  | nil => rfl
  | cons b rest ih =>
    obtain ⟨hb, hrest⟩ := List.forall_mem_cons.1 h
    rw [assemblePushes, (inRange_ok b 256 b).2 ⟨hb, rfl⟩, ih hrest]
    rfl

/-- A computation that succeeds has succeeded in its first part. -/
theorem exists_of_bind_eq_ok {ε α β : Type} {x : Except ε α} {f : α → Except ε β} {b : β} (h : x >>= f = .ok b) :
    ∃ a, x = .ok a ∧ f a = .ok b := by
  cases x with
  | error e => cases h
  | ok a => exact ⟨a, rfl, h⟩

/-- Every operation of the list has an encoding. -/
def AllWf (is : List Instr) : Prop := ∀ i ∈ is, i.wf = true

theorem assemblePushes_wf {bytes : List Nat} {is : List Instr} (h : assemblePushes bytes = .ok is) : AllWf is := by
  induction bytes generalizing is with
  | nil => cases h; nofun
  | cons b rest ih =>
    obtain ⟨v, -, h⟩ := exists_of_bind_eq_ok h
    obtain ⟨js, hjs, h⟩ := exists_of_bind_eq_ok h
    cases h
    exact List.forall_mem_cons.2 ⟨rfl, ih hjs⟩

/-- RDREG is the one line whose range check an encoding needs (R88): every other operand admits every value. -/
theorem assembleLine_wf {line : AsmLine} {is : List Instr} (h : assembleLine line = .ok is) : AllWf is := by
  cases line with
  | push b => exact assemblePushes_wf h
  | pushs first rest => exact assemblePushes_wf h
  | advrd n =>
    obtain ⟨v, -, h⟩ := exists_of_bind_eq_ok h
    cases h
    exact List.forall_mem_singleton.2 rfl
  | setline baud dataBits =>
    obtain ⟨b, -, h⟩ := exists_of_bind_eq_ok h
    obtain ⟨d, -, h⟩ := exists_of_bind_eq_ok h
    cases h
    exact List.forall_mem_singleton.2 rfl
  | rdreg reg =>
    cases reg with
    | name r =>
      cases h
      exact List.forall_mem_singleton.2 (by cases r <;> rfl)
    | number n =>
      obtain ⟨v, hv, h⟩ := exists_of_bind_eq_ok h
      obtain ⟨hn, rfl⟩ := (inRange_ok n 7 v).1 hv
      cases h
      refine List.forall_mem_singleton.2 (decide_eq_true ?_)
      rw [BitVec.toNat_ofNat]
      omega
  | avail | isfull | drainTick | drainDone | capture | getbaud | fence | drain | sync =>
    cases h
    exact List.forall_mem_singleton.2 rfl

theorem assembleLines_wf {lines : List AsmLine} {is : List Instr} (h : assembleLines lines = .ok is) : AllWf is := by
  induction lines generalizing is with
  | nil => cases h; nofun
  | cons line rest ih =>
    obtain ⟨js, hjs, h⟩ := exists_of_bind_eq_ok h
    obtain ⟨ks, hks, h⟩ := exists_of_bind_eq_ok h
    cases h
    exact List.forall_mem_append.2 ⟨assembleLine_wf hjs, ih hks⟩

/-- The words of operations that have an encoding decode to them, one by one. -/
theorem AllWf.map_decode_encode {is : List Instr} (h : AllWf is) : (is.map encode).map decode = is.map Except.ok := by
  rw [List.map_map]
  exact List.map_congr_left fun i hi => decodeOfEncode i (h i hi)

end Sys2Proof.Machine

open Sys2Proof Sys2Proof.Machine

/-- Settles O6: every accepted line gives well-formed operations, and their encodings decode to them. -/
theorem assembledWordsAreLegal : Obligations.AssembledWordsAreLegal := by
  intro lines words h
  obtain ⟨is, his, h⟩ := exists_of_bind_eq_ok h
  cases h
  exact ⟨is, his, (assembleLines_wf his).map_decode_encode⟩

/-- Settles O7. -/
theorem pseudoOperationsExpand : Obligations.PseudoOperationsExpand :=
  ⟨rfl, rfl, fun b rest h => assemblePushes_of_bytes (b :: rest) h⟩
end

section
/-! SUPPORT. The ring primitives AVAIL, ISFULL, PUSH and ADVRD (`40_ring_buffer.md`): what each answers in each of its
cases, and the numbers behind the two that emit a result. -/

namespace Sys2Proof.Machine

variable {s : State}

/-! ## The two counts of the consumer view -/

/-- The two counts of the consumer view agree where the unread bytes do not wrap, and where they end at the physical end
of storage (R101). -/
theorem availFn_eq_ringDist_iff {c wv rv : Nat} (hw : wv < c) (hr : rv < c) :
    availFn c wv rv = ringDist c rv wv ↔ rv ≤ wv ∨ wv = 0 := by
  rw [availFn, ringDist_eq c rv wv hr hw]
  split <;> omega

/-- The first run never fills the ring (R102): where it ends at the physical end of storage, `r` is not 0. -/
theorem availFn_lt {c wv rv : Nat} (hw : wv < c) (hr : rv < c) : availFn c wv rv < c := by
  unfold availFn
  split <;> omega

/-! ## The producer view under the invariant -/

/-- A ring that is full by the true `r` is full in the producer view: `r_sync` is never ahead of `r` (R105). -/
theorem State.Inv.next_w_eq_rSync (hs : s.Inv) (hfull : (s.w + 1) % s.cap = s.r) : (s.w + 1) % s.cap = s.rSync := by
  obtain ⟨hlegal, ⟨hw, hr, hws, hrs⟩, hord, -⟩ := hs
  by_contra hroom
  obtain ⟨-, -, hpending⟩ :=
    ringDist_push s.cap s.w s.r s.wSync s.rSync (capacity_ge_two _ hlegal) hw hr hws hrs hord hroom
  rw [hfull, ringDist_self _ _ hr] at hpending
  omega

/-- With at least two cells, the index after `w` is another one. -/
theorem State.Inv.next_w_ne_w (hs : s.Inv) : (s.w + 1) % s.cap ≠ s.w := by
  obtain ⟨hlegal, ⟨hw, -⟩, -⟩ := hs
  intro heq
  have hone : ringDist s.cap s.w ((s.w + 1) % s.cap) = 1 := ringDist_advanced _ _ _ hw (capacity_ge_two _ hlegal)
  rw [heq, ringDist_self _ _ hw] at hone
  omega

/-! ## What each operation answers -/

theorem exec_avail (s : State) :
    exec .avail s = .next (s.emit (BitVec.ofNat 32 (availFn s.cap s.wSync s.r))).issued := rfl

theorem exec_isfull (s : State) :
    exec .isfull s = .next (s.emit (if (s.w + 1) % s.cap = s.rSync then 1 else 0)).issued := by
  simp only [exec, execIsfull, State.fullP_iff]

/-- PUSH waits while an episode runs (R110). -/
theorem exec_push_of_episode (hcap : s.capState ≠ .idle) (d : Byte) : exec (.push d) s = .next s :=
  if_pos (s.capBusy_iff.2 hcap)

/-- PUSH into a ring that is full in the producer view (R111). -/
theorem exec_push_of_full (hcap : s.capState = .idle) (hfull : (s.w + 1) % s.cap = s.rSync) (d : Byte) :
    exec (.push d) s = .next (s.raiseFault .pushFull).issued := by
  simp only [exec, execPush, State.held, s.capBusy_eq_false.2 hcap, s.fullP_iff.2 hfull, Bool.false_eq_true, if_false,
    if_true]

/-- ADVRD waits while an offer is outstanding (R115). -/
theorem exec_advrd_of_offer (hdrn : s.drnState = .offer) (n : BitVec 16) : exec (.advrd n) s = .next s :=
  if_pos (s.drnBusy_iff.2 hdrn)

/-- ADVRD above what the consumer sees (R116). -/
theorem exec_advrd_of_lt {n : BitVec 16} (hdrn : s.drnState = .idle) (hn : s.pendingC < n.toNat) :
    exec (.advrd n) s = .next (s.raiseFault .advanceOverrun).issued := by
  simp only [exec, execAdvrd, State.held, s.drnBusy_eq_false.2 hdrn, countOf, hn, Bool.false_eq_true, if_false, if_true]

/-- An advance by no byte leaves `r` where it is, in range. -/
theorem State.advanceRead_zero (hr : s.r < s.cap) : s.advanceRead 0 = s := by
  rw [State.advanceRead, Nat.add_zero, Nat.mod_eq_of_lt hr]

end Sys2Proof.Machine

open Sys2Proof Sys2Proof.Machine

/-- Settles O11: the source's formula is below the capacity, so the 32-bit result holds it whole. -/
theorem availEmitsFirstRun : Obligations.AvailEmitsFirstRun := by
  refine ⟨decodeOfEncode .avail rfl, fun s => ⟨exec_avail s, fun hlegal hr hws => ⟨_, exec_avail s, ?_⟩⟩⟩
  have hrun : availFn s.cap s.wSync s.r < s.cap := availFn_lt hws hr
  have hcap : s.cap ≤ 65536 := capacity_le _ hlegal
  rw [BitVec.toNat_ofNat, Nat.mod_eq_of_lt (by omega)]
  exact ⟨rfl, Nat.le_sub_one_of_lt hrun⟩

/-- Settles O12. -/
theorem availAndPendingDifferOnlyWhenWrapped : Obligations.AvailAndPendingDifferOnlyWhenWrapped := by
  refine fun s hr hws => ⟨ringDist_int _ _ _ (capacity_pos s.cfg), rfl, ?_⟩
  have heq : availFn s.cap s.wSync s.r = s.pendingC ↔ s.r ≤ s.wSync ∨ s.wSync = 0 := availFn_eq_ringDist_iff hws hr
  exact (not_congr heq).trans (by rw [not_or, Nat.not_le])

/-- Settles O14: the invariant keeps `r_sync` from passing `r`, and a ring of at least two cells tells full from empty. -/
theorem isfullEmitsProducerView : Obligations.IsfullEmitsProducerView := by
  refine ⟨decodeOfEncode .isfull rfl, fun s => ⟨exec_isfull s, fun hs hfull => ?full, fun hs hempty => ?empty⟩⟩
  case full =>
    rw [exec_isfull, if_pos (hs.next_w_eq_rSync hfull)]
    rfl
  case empty =>
    rw [exec_isfull, if_neg (hempty ▸ hs.next_w_ne_w)]
    rfl

/-- Settles O15, by the three cases of PUSH. -/
theorem pushWritesOneCell : Obligations.PushWritesOneCell := by
  refine fun data s => ⟨decodeOfEncode (.push data) rfl, fun hcap => exec_push_of_episode hcap data,
    fun hcap hfull => exec_push_of_full hcap hfull data,
    fun hcap hroom hw => ⟨_, exec_push_of_room hcap hroom hw data, fun a => ?_, rfl⟩⟩
  simp only [State.issued_storage, State.pushed, Memory.read_write, eq_comm]

/-- Settles O16, by the three cases of ADVRD; advancing by 0 is within every pending count. -/
theorem advrdAdvancesReadIndex : Obligations.AdvrdAdvancesReadIndex := by
  refine fun n s => ⟨decodeOfEncode (.advrd n) rfl, fun hdrn => exec_advrd_of_offer hdrn n, exec_advrd_of_lt,
    exec_advrd_of_le, fun hdrn hr => ?_⟩
  rw [exec_advrd_of_le hdrn (Nat.zero_le _)]
  exact congrArg (fun t : State => Host.Outcome.next t.issued) (State.advanceRead_zero hr)
end

section
/-! SUPPORT. Runs whose schedule is given (log entry 4), and a program's pushes into a ring with room for them
(`40_ring_buffer.md` R103). -/

namespace Sys2Proof.Machine

variable {s t : State}

/-- One step of a run that goes on. -/
theorem run_succ_of_step (M : Host.Core) {u v : M.State} (h : M.step u = .next v) (n : Nat) :
    M.run (n + 1) u = M.run n v := by
  rw [Host.Core.run, h]

/-- The state with another schedule. -/
def State.scheduled (s : State) (rest : List AgentStep) : State := { s with sched := rest }

/-- In a legal configuration the machine takes the step its schedule names first. -/
theorem run_of_sched {e : AgentStep} {rest : List AgentStep} (hlegal : s.cfg.legal = true)
    (hsched : s.sched = e :: rest) (hstep : runStep e (s.scheduled rest) = .next t) (n : Nat) :
    core.run (n + 1) s = core.run n t := by
  refine run_succ_of_step core ?_ n
  change step s = .next t
  rw [step_of_legal s hlegal, State.nextStep, State.popStep, hsched]
  exact hstep

/-- The control port runs the first of the words left when it encodes an operation. -/
theorem runStep_issue_of_drop {i : Instr} {words : List Word} (hwf : i.wf = true)
    (hops : s.ops.drop s.opPos = encode i :: words) : runStep .issue s = exec i s := by
  refine runStep_issue_of_decode ?_ (decodeOfEncode i hwf)
  rw [State.fetchWord, ← List.head?_drop, hops, List.head?_cons]

/-- The control port of a scheduled run issues the first of the words left. -/
theorem run_issue {i : Instr} {words : List Word} {rest : List AgentStep} (hlegal : s.cfg.legal = true)
    (hsched : s.sched = .issue :: rest) (hwf : i.wf = true) (hops : s.ops.drop s.opPos = encode i :: words)
    (hexec : exec i (s.scheduled rest) = .next t) (n : Nat) : core.run (n + 1) s = core.run n t :=
  run_of_sched hlegal hsched ((runStep_issue_of_drop (s := s.scheduled rest) hwf hops).trans hexec) n

/-- Pushes issued one after the other while no episode runs, into a ring with room for them below its
physical end: `w` and `op_pos` advance by their number, and nothing else but storage and the schedule changes. -/
theorem run_pushes (bytes : List Byte) {words : List Word} {rest : List AgentStep} (hlegal : s.cfg.legal = true)
    (hcap : s.capState = .idle) (hrSync : s.rSync = 0) (hroom : s.w + bytes.length < s.cap)
    (hops : s.ops.drop s.opPos = bytes.map (fun b => encode (.push b)) ++ words)
    (hsched : s.sched = List.replicate bytes.length .issue ++ rest) :
    ∃ m : Memory, ∀ n, core.run (n + bytes.length) s = core.run n { s with
      storage := m, w := s.w + bytes.length, opPos := s.opPos + bytes.length, sched := rest } := by
  induction bytes generalizing s with
  | nil => exact ⟨s.storage, fun n => by rw [show rest = s.sched from hsched.symm]; rfl⟩
  | cons b bytes ih =>
    rw [List.length_cons] at hroom
    have hnext : (s.w + 1) % s.cap = s.w + 1 := Nat.mod_eq_of_lt (by omega)
    have hnotFull : (s.w + 1) % s.cap ≠ s.rSync := by omega
    have hw : s.w < s.cap := by omega
    have hpush := exec_push_of_room (s := s.scheduled (List.replicate bytes.length .issue ++ rest)) hcap hnotFull hw b
    have hroomAfter : (s.w + 1) % s.cap + bytes.length < s.cap := by omega
    have hopsAfter : s.ops.drop (s.opPos + 1) = bytes.map (fun b => encode (.push b)) ++ words := by
      rw [← List.tail_drop, hops]
      rfl
    obtain ⟨m, hm⟩ := ih (s := ((s.scheduled (List.replicate bytes.length .issue ++ rest)).pushed b).issued)
      hlegal hcap hrSync hroomAfter hopsAfter rfl
    refine ⟨m, fun n => ?_⟩
    rw [List.length_cons, ← Nat.add_assoc, run_issue hlegal hsched rfl hops hpush, hm n]
    simp only [State.issued, State.pushed, State.scheduled, hnext, Nat.add_right_comm _ 1, ← Nat.add_assoc]

/-- The write synchroniser steps and the control port issues AVAIL: it counts up to the true `w` (R66, R102). -/
theorem run_writeSync_avail (hlegal : s.cfg.legal = true) (hsched : s.sched = [.writeSync, .issue])
    (hops : s.ops.drop s.opPos = [encode .avail]) : ∃ t, core.run 2 s = .next t
      ∧ t.results = s.results ++ [BitVec.ofNat 32 (availFn s.cap s.w s.r)] ∧ t.fault = s.fault := by
  have hsync : core.run 2 s = core.run 1 { s.scheduled [.issue] with wSync := s.w } := run_of_sched hlegal hsched rfl 1
  have havail := run_issue (s := { s.scheduled [.issue] with wSync := s.w }) hlegal rfl rfl hops (exec_avail _) 0
  exact ⟨_, hsync.trans havail, rfl, rfl⟩

/-- Pushes, the write synchroniser's step and AVAIL: the result counts up to where the pushes have brought `w`. -/
theorem run_pushes_avail (bytes : List Byte) (hlegal : s.cfg.legal = true) (hcap : s.capState = .idle)
    (hrSync : s.rSync = 0) (hroom : s.w + bytes.length < s.cap)
    (hops : s.ops.drop s.opPos = bytes.map (fun b => encode (.push b)) ++ [encode .avail])
    (hsched : s.sched = List.replicate bytes.length .issue ++ [.writeSync, .issue]) :
    ∃ t, core.run (bytes.length + 2) s = .next t
      ∧ t.results = s.results ++ [BitVec.ofNat 32 (availFn s.cap (s.w + bytes.length) s.r)] ∧ t.fault = s.fault := by
  obtain ⟨m, hpushes⟩ := run_pushes bytes hlegal hcap hrSync hroom hops hsched
  have hleft : s.ops.drop (s.opPos + bytes.length) = [encode .avail] := by
    rw [← List.drop_drop, hops, List.drop_left' (List.length_map _)]
  obtain ⟨t, hrun, hrecords⟩ := run_writeSync_avail (s := { s with
    storage := m, w := s.w + bytes.length, opPos := s.opPos + bytes.length, sched := [.writeSync, .issue] })
    hlegal rfl hleft
  rw [Nat.add_comm]
  exact ⟨t, (hpushes 2).trans hrun, hrecords⟩

end Sys2Proof.Machine

open Sys2Proof Sys2Proof.Machine

/-- Settles O13: the formula and the pending count agree where `r ≤ w_sync`; from reset, `w` is the number of pushes,
`r` is 0, and the synchroniser shows the consumer all of them. -/
theorem availCountsPushedBytes : Obligations.AvailCountsPushedBytes := by
  refine ⟨fun s hle hws => ?count, fun cfg bytes hlegal hfit => ?run⟩
  case count =>
    rw [← (availFn_eq_ringDist_iff hws (Nat.lt_of_le_of_lt hle hws)).2 (.inl hle)]
    exact exec_avail s
  case run =>
    have hpos : 0 < cfg.capacity := capacity_pos cfg
    have hroom : 0 + bytes.length < cfg.capacity := by
      change bytes.length ≤ cfg.capacity - 1 at hfit
      omega
    obtain ⟨t, hrun, hresults, hfault⟩ := run_pushes_avail (s := State.launch cfg
      (bytes.map (fun b => encode (.push b)) ++ [encode .avail]) [] false
      (List.replicate bytes.length .issue ++ [.writeSync, .issue])) bytes hlegal rfl rfl hroom rfl rfl
    refine ⟨t, hrun, hresults.trans ?_, hfault⟩
    simp [State.launch, availFn]
end

section
/-! SUPPORT. The drain engine's transactions (`41_drain_engine.md`): what a grant and the transport's answer reply in
each of their cases, the longest run a grant can offer, and a transaction that a full answer commits. -/

namespace Sys2Proof.Machine

variable {s t : State} {e : AgentStep}

/-! ## The grant -/

/-- The three requests after a grant, whichever it serves (R139). -/
theorem State.clearGranted_eq (s : State) : s.clearGranted = { s with
    reqCap := false, reqDone := s.reqCap && s.reqDone, reqTick := (s.reqCap || s.reqDone) && s.reqTick } := by
  cases hcap : s.reqCap with
  | true => simp [State.clearGranted, hcap]
  | false => cases hdone : s.reqDone <;> simp [State.clearGranted, hcap, hdone]

/-- Of two requests one is left after a grant (R139). -/
theorem State.clearGranted_requests (h : s.reqCap = true ∧ s.reqDone = true ∨ s.reqCap = true ∧ s.reqTick = true
      ∨ s.reqDone = true ∧ s.reqTick = true) :
    s.clearGranted.reqCap = true ∨ s.clearGranted.reqDone = true ∨ s.clearGranted.reqTick = true := by
  rcases h with ⟨hcap, hdone⟩ | ⟨hcap, htick⟩ | ⟨hdone, htick⟩
  · exact .inr (.inl (by simp [hcap, hdone]))
  · exact .inr (.inr (by simp [hcap, htick]))
  · exact .inr (.inr (by simp [hdone, htick]))

/-- The state after a grant that offers `bytes` (R137, R139). -/
def State.granted (s : State) (bytes : List Byte) : State := s.clearGranted.makeOffer s.r s.offerLength bytes

theorem runStep_grant_of_not_enabled (h : s.enabled .grant = false) : runStep .grant s = .next s :=
  if_neg (ne_true_of_eq_false h)

/-- A grant on a ring that is empty in the consumer view (R134). -/
theorem runStep_grant_of_empty (hen : s.enabled .grant = true) (hempty : s.wSync = s.r) :
    runStep .grant s = .next s.clearGranted :=
  (if_pos hen).trans (if_pos (s.emptyC_iff.2 hempty))

/-- A grant that reads the cells of its offer (R137). -/
theorem runStep_grant_of_readRun {bytes : List Byte} (hen : s.enabled .grant = true) (hne : s.wSync ≠ s.r)
    (hread : s.readRun s.r s.offerLength = .ok bytes) : runStep .grant s = .next (s.granted bytes) := by
  refine (if_pos hen).trans ((if_neg (mt s.emptyC_iff.1 hne)).trans ?_)
  rw [hread]
  rfl

/-- Under the invariant a grant on a ring that is not empty offers (R133, R152). -/
theorem State.Inv.runStep_grant (hs : s.Inv) (hen : s.enabled .grant = true) (hne : s.wSync ≠ s.r) :
    ∃ bytes, s.readRun s.r s.offerLength = .ok bytes ∧ runStep .grant s = .next (s.granted bytes) := by
  obtain ⟨bytes, hread⟩ := hs.readRun_grant hne
  exact ⟨bytes, hread, runStep_grant_of_readRun hen hne hread⟩

/-- The offer is the longest one within the bounds of R135 and R136. -/
theorem State.Inv.le_offerLength (hs : s.Inv) {n : Nat} (hseen : n ≤ s.pendingC) (hchunk : n ≤ s.cfg.maxChunk)
    (hend : s.r + n ≤ s.cap) : n ≤ s.offerLength := by
  obtain ⟨-, ⟨-, hr, hws, -⟩, -⟩ := hs
  have hdist := ringDist_cases s.cap s.r s.wSync hr hws
  unfold State.pendingC at hseen
  unfold State.offerLength State.runLength
  split <;> omega

/-- Every step but a grant that offers leaves the record of offers alone (R46, R137). -/
theorem Change.offers_eq_or_granted (h : Change s e t) : t.offers = s.offers
    ∨ e = .grant ∧ s.wSync ≠ s.r ∧ ∃ bytes, s.readRun s.r s.offerLength = .ok bytes ∧ t = s.granted bytes := by
  cases h with
  | grantEmpty => exact .inl s.clearGranted_offers
  | grantOffer bytes hen hne hread => exact .inr ⟨rfl, hne, bytes, hread, rfl⟩
  | _ => exact .inl rfl

/-! ## The transport's answer -/

/-- With no offer outstanding there is nothing to answer (R140). -/
theorem runStep_answer_of_idle (hdrn : s.drnState = .idle) (k : Word) : runStep (.answer k) s = .next s :=
  if_neg (ne_true_of_eq_false (s.drnBusy_eq_false.2 hdrn))

/-- An answer above the offer (R143). -/
theorem runStep_answer_of_gt {k : Word} (hdrn : s.drnState = .offer) (hk : s.offerLen < k.toNat) :
    runStep (.answer k) s = .next { s.raiseFault .transportOveraccept with drnState := .idle } :=
  (if_pos (s.drnBusy_iff.2 hdrn)).trans (if_pos hk)

/-- While an offer is outstanding the ring is not empty in the consumer view (R73). -/
theorem State.Inv.wSync_ne_r_of_offer (hs : s.Inv) (hdrn : s.drnState = .offer) : s.wSync ≠ s.r := by
  obtain ⟨-, ⟨-, hr, -⟩, -, -, hoffer, -⟩ := hs
  obtain ⟨-, hpos, hseen, -⟩ := hoffer hdrn
  intro hempty
  rw [State.pendingC, hempty, ringDist_self _ _ hr] at hseen
  omega

/-- The next grant would offer at least what is outstanding (R150). -/
theorem State.Inv.offerLen_le_offerLength (hs : s.Inv) (hdrn : s.drnState = .offer) : s.offerLen ≤ s.offerLength := by
  have ⟨_, _, _, _, hoffer, _⟩ := hs
  obtain ⟨hoff, -, hseen, hchunk, hend⟩ := hoffer hdrn
  exact hs.le_offerLength hseen hchunk (hoff ▸ hend)

/-! ## A transaction -/

/-- The state after a grant that offers `bytes` and the full answer that commits them (R137, R141). -/
def State.transacted (s : State) (bytes : List Byte) : State :=
  ((s.granted bytes).deliver bytes).advanceRead s.offerLength

/-- A run that fits a chunk is offered whole (R135, R136). -/
theorem State.offerLength_of_le (h : s.runLength ≤ s.cfg.maxChunk) : s.offerLength = s.runLength := min_eq_left h

/-- An offer ends by the physical end of storage, so its length fits the transport's answer. -/
theorem State.Inv.toNat_offerLength (hs : s.Inv) (hne : s.wSync ≠ s.r) :
    (BitVec.ofNat 32 s.offerLength).toNat = s.offerLength := by
  obtain ⟨-, -, -, hend⟩ := (State.inv_iff.1 hs).1.offerLength_bounds hne
  have hcap : s.cap ≤ 65536 := capacity_le _ hs.1
  rw [BitVec.toNat_ofNat, Nat.mod_eq_of_lt (by omega)]

/-- Under the invariant a grant on a ring that is not empty, answered in full, is such a transaction. -/
theorem State.Inv.takeSteps_transaction (hs : s.Inv) (hen : s.enabled .grant = true) (hne : s.wSync ≠ s.r) :
    ∃ bytes, takeSteps [.grant, .answer (BitVec.ofNat 32 s.offerLength)] s = some (s.transacted bytes)
      ∧ (s.transacted bytes).Inv := by
  have hk := hs.toNat_offerLength hne
  generalize BitVec.ofNat 32 s.offerLength = k at hk ⊢
  obtain ⟨bytes, hread, hgrant⟩ := hs.runStep_grant hen hne
  have hreadOffer : (s.granted bytes).readRun s.r k.toNat = .ok bytes := by
    rw [hk, ← hread]
    exact State.readRun_congr s (s.granted bytes) _ _ s.clearGranted_cfg fun _ _ => by simp [State.granted]
  have hanswer : runStep (.answer k) (s.granted bytes) = .next (s.transacted bytes) :=
    (runStep_answer_of_le rfl hk.le hreadOffer).trans (congrArg _ (if_pos hk))
  have hbusy : (s.granted bytes).enabled (.answer k) = true := (State.drnBusy_iff _).2 rfl
  refine ⟨bytes, ?_, (hs.next hgrant).next hanswer⟩
  simp only [takeSteps, hen, hgrant, hbusy, hanswer, if_true]

@[simp] theorem State.transacted_cfg (s : State) (bytes : List Byte) : (s.transacted bytes).cfg = s.cfg := by
  simp [State.transacted, State.granted]
@[simp] theorem State.transacted_wSync (s : State) (bytes : List Byte) : (s.transacted bytes).wSync = s.wSync := by
  simp [State.transacted, State.granted]
theorem State.transacted_r (s : State) (bytes : List Byte) :
    (s.transacted bytes).r = (s.r + s.offerLength) % s.cap := by
  simp [State.transacted, State.granted, State.cap]
@[simp] theorem State.transacted_offers (s : State) (bytes : List Byte) :
    (s.transacted bytes).offers = s.offers ++ [⟨s.r, s.offerLength, bytes⟩] := by
  simp [State.transacted, State.granted]

/-- The next grant is enabled when the first one leaves a request (R132). -/
theorem State.transacted_enabled (s : State) (bytes : List Byte) : (s.transacted bytes).enabled .grant = true
    ↔ s.clearGranted.reqCap = true ∨ s.clearGranted.reqDone = true ∨ s.clearGranted.reqTick = true :=
  (State.grantEnabled_iff _).trans (and_iff_right rfl)

/-- Wrapped bytes are offered up to the physical end of storage, and their transaction ends at cell 0 (R145). -/
theorem State.transaction_of_wrapped (hr : s.r < s.cap) (hwrap : s.wSync < s.r) (hchunk : s.cap - s.r ≤ s.cfg.maxChunk)
    (bytes : List Byte) : s.offerLength = s.cap - s.r ∧ (s.transacted bytes).r = 0 := by
  have hrun : s.runLength = s.cap - s.r := if_neg hwrap.asymm
  have hlen : s.offerLength = s.cap - s.r := (State.offerLength_of_le (hrun ▸ hchunk)).trans hrun
  exact ⟨hlen, by rw [s.transacted_r, hlen, Nat.add_sub_cancel' hr.le, Nat.mod_self]⟩

/-- Bytes that do not wrap are offered up to `w_sync`, and their transaction empties the ring (R145). -/
theorem State.transaction_of_lt (hws : s.wSync < s.cap) (hlt : s.r < s.wSync) (hchunk : s.wSync - s.r ≤ s.cfg.maxChunk)
    (bytes : List Byte) : s.offerLength = s.wSync - s.r ∧ (s.transacted bytes).r = s.wSync := by
  have hrun : s.runLength = s.wSync - s.r := if_pos hlt
  have hlen : s.offerLength = s.wSync - s.r := (State.offerLength_of_le (hrun ▸ hchunk)).trans hrun
  exact ⟨hlen, by rw [s.transacted_r, hlen, Nat.add_sub_cancel' hlt.le, Nat.mod_eq_of_lt hws]⟩

end Sys2Proof.Machine

open Sys2Proof Sys2Proof.Machine

/-- Settles O28: under the invariant the cells of the run exist and hold values, and the grant reads them. -/
theorem grantOffersTheContiguousRun : Obligations.GrantOffersTheContiguousRun := by
  intro s hs hen hne
  obtain ⟨bytes, hread, hgrant⟩ := hs.runStep_grant hen hne
  obtain ⟨hlength, hcells⟩ := (s.readRun_ok _ _ _).1 hread
  refine ⟨s.granted bytes, bytes, hgrant, ?_, rfl, hlength, fun i hi => ?_⟩
  · rw [State.granted, s.clearGranted_eq]
    rfl
  · obtain ⟨hlt, hbyte⟩ := hcells i hi
    exact ⟨hlt, hbyte.symm⟩

/-- Settles O29: only a grant adds an offer, of bytes the consumer sees, and it never sees `C` of them. -/
theorem offersAreBounded : Obligations.OffersAreBounded := by
  intro e s t hs hstep
  refine (runStep_change e s t hstep).offers_eq_or_granted.imp_right ?_
  rintro ⟨rfl, hne, bytes, hread, rfl⟩
  obtain ⟨hpos, hseen, hchunk, -⟩ := (State.inv_iff.1 hs).1.offerLength_bounds hne
  have hlt : s.pendingC < s.cap := ringDist_lt _ _ _ (capacity_pos _)
  refine ⟨⟨s.r, s.offerLength, bytes⟩, rfl, ?_, hpos, ?_, ((s.readRun_ok _ _ _).1 hread).1⟩
  · rw [State.granted, State.makeOffer_offers, s.clearGranted_offers]
  · exact le_min (Nat.le_sub_one_of_lt (hseen.trans_lt hlt)) hchunk

/-- Settles O30, by the cases of the answer; the invariant lets the engine read the offer's cells again. -/
theorem transportAnswerCommitsOrRetries : Obligations.TransportAnswerCommitsOrRetries := by
  refine fun k s => ⟨fun hdrn => runStep_answer_of_idle hdrn k, runStep_answer_of_gt, fun hs hdrn hk => ?_⟩
  obtain ⟨bytes, hread⟩ := hs.readRun_offer hdrn le_rfl
  obtain ⟨hlength, hcells⟩ := (s.readRun_ok _ _ _).1 hread
  refine ⟨bytes, hlength, fun i hi => (hcells i hi).2.symm, ?_,
    fun hrec => s.offerRecorded_record bytes hrec hdrn hread⟩
  rw [runStep_answer_of_le hdrn hk (s.readRun_take _ _ _ bytes hread hk)]
  split <;> rfl

/-- Settles O47: the first transaction ends at the physical end of storage, the second at `w_sync`. -/
theorem wrappedDataNeedsTwoTransactions : Obligations.WrappedDataNeedsTwoTransactions := by
  intro s hs hdrn hreq hpos hwrap hfirst hsecond
  have ⟨_, ⟨_, hr, hws, _⟩, _⟩ := hs
  have hen : s.enabled .grant = true := s.grantEnabled_iff.2 ⟨hdrn, by tauto⟩
  obtain ⟨head, hstep, ht⟩ := hs.takeSteps_transaction hen hwrap.ne
  obtain ⟨hlen, hzero⟩ := State.transaction_of_wrapped hr hwrap hfirst head
  have hleft := State.clearGranted_requests hreq
  have hpending : (s.transacted head).r < (s.transacted head).wSync := by rwa [hzero, s.transacted_wSync]
  obtain ⟨tail, hstep', hu⟩ := ht.takeSteps_transaction ((s.transacted_enabled head).2 hleft) hpending.ne'
  have ⟨_, ⟨_, _, hws', _⟩, _⟩ := ht
  obtain ⟨hlen', hend⟩ := State.transaction_of_lt hws' hpending (by simpa [hzero] using hsecond) tail
  rw [hlen] at hstep
  rw [hlen', hzero, s.transacted_wSync, Nat.sub_zero] at hstep'
  exact ⟨_, _, hstep, hzero, s.transacted_wSync head, hleft, hstep', by simpa using hend, by simp, by simp⟩

/-- Settles O48: a short answer leaves the ring alone, so the next grant reads the same cells from `r` on, and no fewer
than were outstanding. -/
theorem shortAnswersAreOfferedAgain : Obligations.ShortAnswersAreOfferedAgain := by
  intro s k hs hdrn _ hk hreq
  obtain ⟨taken, hread⟩ := hs.readRun_offer hdrn hk.le
  have hanswer : runStep (.answer k) s = .next (s.deliver taken) :=
    (runStep_answer_of_le hdrn hk.le hread).trans (by rw [if_neg hk.ne])
  have hen : (s.deliver taken).enabled .grant = true := (State.grantEnabled_iff _).2 ⟨rfl, hreq⟩
  obtain ⟨bytes, hreadAgain, hgrant⟩ := (hs.next hanswer).runStep_grant hen (hs.wSync_ne_r_of_offer hdrn)
  have hle : k.toNat ≤ s.offerLength := hk.le.trans (hs.offerLen_le_offerLength hdrn)
  have ⟨_, _, _, _, hoffer, _⟩ := hs
  obtain ⟨hoff, -⟩ := hoffer hdrn
  have htake : bytes.take k.toNat = taken := by
    have hprefix := (s.deliver taken).readRun_take _ _ _ bytes hreadAgain hle
    have hsame : (s.deliver taken).readRun s.r k.toNat = s.readRun s.r k.toNat :=
      State.readRun_congr s (s.deliver taken) _ _ rfl fun _ _ => rfl
    rw [hoff] at hread
    exact Except.ok.inj (hprefix.symm.trans (hsame.trans hread))
  refine ⟨_, _, ⟨s.r, s.offerLength, bytes⟩, hanswer, rfl, rfl, hgrant, ?_, hoff.symm, hle, ?_, ?_⟩
  · exact congrArg (· ++ _) (s.deliver taken).clearGranted_offers
  · rw [htake]
    rfl
  · rw [htake]
    exact ((s.readRun_ok _ _ _).1 hread).1

/-- Settles O17. -/
theorem drainOperationsPostRequests : Obligations.DrainOperationsPostRequests :=
  ⟨decodeOfEncode .drainTick rfl, decodeOfEncode .drainDone rfl, fun _ => ⟨rfl, rfl⟩⟩

/-- Settles O27, by the cases of the grant that offer nothing. -/
theorem grantConsumesOneRequest : Obligations.GrantConsumesOneRequest :=
  fun s => ⟨s.grantEnabled_iff, runStep_grant_of_not_enabled,
    fun hen hempty => (runStep_grant_of_empty hen hempty).trans (congrArg _ s.clearGranted_eq)⟩
end

section
/-! SUPPORT. The capture episode (`42_capture_handler.md`): what CAPTURE, the intake, the flush and the receiver answer
in each of their cases, and an episode taken step by step. -/

namespace Sys2Proof.Machine

variable {s t u : State}

/-! ## CAPTURE -/

/-- CAPTURE waits while an episode runs (R179). -/
theorem exec_capture_of_episode (hcap : s.capState ≠ .idle) : exec .capture s = .next s :=
  if_pos (s.capBusy_iff.2 hcap)

/-- CAPTURE with no episode running starts one (R172). -/
theorem exec_capture_of_idle (hcap : s.capState = .idle) : exec .capture s = .next s.episodeStart.issued :=
  if_neg (ne_true_of_eq_false (s.capBusy_eq_false.2 hcap))

/-! ## Intake -/

/-- Outside `C_LOOP` the intake has no step (R174). -/
theorem runStep_intake_of_ne_loop (hcap : s.capState ≠ .loop) : runStep .intake s = .next s := if_neg hcap

/-- An empty queue ends the loop (R175). -/
theorem runStep_intake_of_empty (hcap : s.capState = .loop) (hqueue : s.rxQueue = []) :
    runStep .intake s = .next { s with capState := .flush } := by
  simp only [runStep, intakeStep, hcap, hqueue, if_true]

/-- Intake of a byte with a ring that is full in the producer view (R176). -/
theorem runStep_intake_of_full {b : Byte} {rest : List Byte} (hcap : s.capState = .loop)
    (hqueue : s.rxQueue = b :: rest) (hfull : (s.w + 1) % s.cap = s.rSync) :
    runStep .intake s = .next { s with rxQueue := rest, flushNeeded := true, capState := .flush } := by
  simp only [runStep, intakeStep, hcap, hqueue, s.fullP_iff.2 hfull, if_true]

/-! ## Flush -/

/-- Outside `C_FLUSH` the flush has no step (R174). -/
theorem runStep_flush_of_ne_flush (hcap : s.capState ≠ .flush) : runStep .flush s = .next s := if_neg hcap

/-- The request and the write index cross together (R178). -/
theorem runStep_flush_of_needed (hcap : s.capState = .flush) (hneed : s.flushNeeded = true) :
    runStep .flush s = .next { s with reqCap := true, wSync := s.w, flushNeeded := false, capState := .idle } := by
  simp only [runStep, flushStep, hcap, hneed, if_true]

/-- A flush that posts nothing only ends the episode (R178). -/
theorem runStep_flush_of_not_needed (hcap : s.capState = .flush) (hneed : s.flushNeeded = false) :
    runStep .flush s = .next { s with capState := .idle } := by
  simp only [runStep, flushStep, hcap, hneed, if_true, Bool.false_eq_true, if_false]

/-! ## A whole episode -/

/-- An intake that ends the loop, and the flush after it. -/
theorem takeSteps_intake_flush (hloop : s.capState = .loop) (hintake : runStep .intake s = .next t)
    (hend : t.capState = .flush) (hflush : runStep .flush t = .next u) : takeSteps [.intake, .flush] s = some u := by
  simp only [takeSteps, State.enabled, hloop, hintake, hend, hflush, beq_self_eq_true, if_true]

/-- An episode that found no idle condition and finds no byte posts nothing (R181). -/
theorem takeSteps_episode_of_empty (hloop : s.capState = .loop) (hqueue : s.rxQueue = [])
    (hneed : s.flushNeeded = false) : takeSteps [.intake, .flush] s = some { s with capState := .idle } :=
  takeSteps_intake_flush hloop (runStep_intake_of_empty hloop hqueue) rfl (runStep_flush_of_not_needed rfl hneed)

/-- An episode that finds a byte and a full ring drops the byte and posts the request (R182). -/
theorem takeSteps_episode_of_full {b : Byte} {rest : List Byte} (hloop : s.capState = .loop)
    (hqueue : s.rxQueue = b :: rest) (hfull : (s.w + 1) % s.cap = s.rSync) :
    takeSteps [.intake, .flush] s = some { s with
      rxQueue := rest, reqCap := true, wSync := s.w, flushNeeded := false, capState := .idle } :=
  takeSteps_intake_flush hloop (runStep_intake_of_full hloop hqueue hfull) rfl (runStep_flush_of_needed rfl rfl)

/-! ## The receiver -/

/-- A byte that finds room joins the queue (R185). -/
theorem runStep_rxArrive_of_room (hroom : s.rxQueue.length < s.cfg.rxDepth) (b : Byte) :
    runStep (.rxArrive b) s = .next { s with rxQueue := s.rxQueue ++ [b] } := if_pos hroom

/-- A byte that finds none meets the overrun policy (R186). -/
theorem runStep_rxArrive_of_full (hfull : s.cfg.rxDepth ≤ s.rxQueue.length) (b : Byte) :
    runStep (.rxArrive b) s = .next (s.overrun b) := if_neg hfull.not_gt

theorem State.overrun_of_dropNew (h : s.cfg.rxOverrun = .dropNew) (b : Byte) : s.overrun b = s := by
  simp only [State.overrun, h, overrunQueue, if_true]

theorem State.overrun_of_dropOldest (h : s.cfg.rxOverrun = .dropOldest) (b : Byte) :
    s.overrun b = { s with rxQueue := s.rxQueue.tail ++ [b] } := by
  simp only [State.overrun, h, overrunQueue, Bool.false_eq_true, if_false]

theorem State.overrun_of_unfixed (h : s.cfg.rxOverrun = .unfixed) (b : Byte) : s.overrun b = { s with
    rxQueue := overrunQueue s.rxQueue b (Config.drawKeepsOld s.draws), draws := s.draws + 1 } := by
  simp only [State.overrun, h]

/-- The two queues an overrun may leave (R186). -/
theorem overrunQueue_cases (queue : List Byte) (b : Byte) (keeps : Bool) :
    overrunQueue queue b keeps = queue ∨ overrunQueue queue b keeps = queue.tail ++ [b] := by
  cases keeps with
  | true => exact .inl rfl
  | false => exact .inr rfl

end Sys2Proof.Machine

open Sys2Proof Sys2Proof.Machine

/-- Settles O18, by whether an episode runs. -/
theorem captureStartsAnEpisode : Obligations.CaptureStartsAnEpisode :=
  ⟨decodeOfEncode .capture rfl, fun _ => ⟨exec_capture_of_episode, exec_capture_of_idle⟩⟩

/-- Settles O31, by the cases of the intake; the byte of a ring with room goes where PUSH would put it. -/
theorem intakePopsOneByte : Obligations.IntakePopsOneByte := by
  refine fun s => ⟨runStep_intake_of_ne_loop, runStep_intake_of_empty, fun b rest => runStep_intake_of_full,
    fun b rest hcap hqueue hroom hw => ⟨_, runStep_intake_of_room hcap hqueue hroom hw, fun a => ?_, rfl⟩⟩
  simp only [State.pushed, Memory.read_write, eq_comm]

/-- Settles O32, by the cases of the flush. -/
theorem flushPostsAndEndsTheEpisode : Obligations.FlushPostsAndEndsTheEpisode :=
  fun _ => ⟨runStep_flush_of_ne_flush, runStep_flush_of_needed, runStep_flush_of_not_needed⟩

/-- Settles O33: each episode is one intake, which ends the loop, and the flush; the invariant has `flush_needed` clear
before the episode, as it is after. -/
theorem wholeEpisodes : Obligations.WholeEpisodes := by
  intro s hs hcap
  obtain ⟨-, hflush, -⟩ := State.inv_iff.1 hs
  have hneed : s.flushNeeded = false := hflush hcap
  refine ⟨fun hqueue hidle => ⟨_, exec_capture_of_idle hcap, ?nothing⟩,
    fun b rest hqueue hfull => ⟨_, exec_capture_of_idle hcap, ?full⟩⟩
  case nothing =>
    rw [takeSteps_episode_of_empty (s := s.episodeStart.issued) rfl hqueue hidle]
    simp [hcap, hneed, hidle]
  case full =>
    rw [takeSteps_episode_of_full (s := s.episodeStart.issued) rfl hqueue hfull]
    simp [hcap, hneed]

/-- Settles O35, by whether the queue has room and by the policy where it has none. -/
theorem receiverQueuesBytes : Obligations.ReceiverQueuesBytes := by
  refine fun b s => ⟨rfl, fun hroom => runStep_rxArrive_of_room hroom b, fun hfull => ?_⟩
  rw [runStep_rxArrive_of_full hfull]
  exact ⟨fun h => congrArg _ (State.overrun_of_dropNew h b), fun h => congrArg _ (State.overrun_of_dropOldest h b),
    fun h => ⟨_, overrunQueue_cases s.rxQueue b _, congrArg _ (State.overrun_of_unfixed h b)⟩⟩
end

section
/-! SUPPORT. The link configuration interface (`43_link_config.md`): what SETLINE and GETBAUD answer in each of their
cases. Neither is ever held, so neither depends on the ring, the episode or the offer. -/

namespace Sys2Proof.Machine

/-- SETLINE writes the pair and forwards it in the same step, whatever the pair (R200, R201, R202). -/
theorem exec_setline (dbits : DataBits) (baud : Baud) (s : State) : exec (.setline dbits baud) s =
    .next ({ s with lineBaud := baud, lineDataBits := dbits, lineSet := true }.forwardLine baud dbits).issued := rfl

variable {s : State}

/-- GETBAUD before the first SETLINE since reset (R205). -/
theorem exec_getbaud_of_unset (hset : s.lineSet = false) : exec .getbaud s = .next (s.raiseFault .lineUnset).issued :=
  if_neg (ne_true_of_eq_false hset)

/-- GETBAUD after a SETLINE (R205); the read-back function stays open (R206). -/
theorem exec_getbaud_of_set (hset : s.lineSet = true) :
    exec .getbaud s = .next (s.emit (Config.baudReadback s.lineBaud)).issued := if_pos hset

end Sys2Proof.Machine

open Sys2Proof Sys2Proof.Machine

/-- Settles O19: the word is SETLINE's encoding, and no operand or state makes SETLINE do anything else. -/
theorem setlineWritesAndForwards : Obligations.SetlineWritesAndForwards :=
  fun dbits baud s => ⟨decodeOfEncode (.setline dbits baud) rfl, exec_setline dbits baud s⟩

/-- Settles O20, by whether a SETLINE was issued since reset. -/
theorem getbaudReadsBack : Obligations.GetbaudReadsBack :=
  ⟨decodeOfEncode .getbaud rfl, fun _ => ⟨exec_getbaud_of_unset, exec_getbaud_of_set⟩⟩
end

section
/-! SUPPORT. The control port (`44_control_port.md`): FENCE, which operations wait and that every other one moves
`op_pos`, the choice of the next step (log entry 4), and where a program run has no step left. -/

namespace Sys2Proof.Machine

variable {s : State}

/-! ## FENCE -/

/-- FENCE waits until the block is quiescent (R226). -/
theorem exec_fence_of_not_quiescent (hq : s.quiescent = false) : exec .fence s = .next s :=
  if_pos (congrArg not hq)

/-- FENCE of a quiescent block (R226). -/
theorem exec_fence_of_quiescent (hq : s.quiescent = true) : exec .fence s = .next s.issued :=
  if_neg (ne_true_of_eq_false (congrArg not hq))

/-! ## The hold -/

/-- The operations that wait, and for what (R220). -/
theorem State.held_iff (s : State) (i : Instr) : s.held i = true ↔
    (∃ d, i = .push d) ∧ s.capState ≠ .idle ∨ (∃ n, i = .advrd n) ∧ s.drnState = .offer
      ∨ i = .capture ∧ s.capState ≠ .idle ∨ i = .fence ∧ s.quiescent = false := by
  cases i <;> simp [State.held]

/-- A held operation has no step (R221, log entry 5). -/
theorem exec_of_held {i : Instr} (h : s.held i = true) : exec i s = .next s := by
  obtain ⟨⟨d, rfl⟩, hcap⟩ | ⟨⟨n, rfl⟩, hdrn⟩ | ⟨rfl, hcap⟩ | ⟨rfl, hq⟩ := (s.held_iff i).1 h
  · exact exec_push_of_episode hcap d
  · exact exec_advrd_of_offer hdrn n
  · exact exec_capture_of_episode hcap
  · exact exec_fence_of_not_quiescent hq

/-- An operation that is not held advances `op_pos` by one, faulting or not (R221); only PUSH needs cell `w`. -/
theorem exec_opPos_of_not_held {i : Instr} (h : s.held i = false) (hw : s.w < s.cap) :
    ∃ t, exec i s = .next t ∧ t.opPos = s.opPos + 1 := by
  cases i with
  | push d =>
    have hcap : s.capState = .idle := s.capBusy_eq_false.1 h
    by_cases hfull : (s.w + 1) % s.cap = s.rSync
    · exact ⟨_, exec_push_of_full hcap hfull d, rfl⟩
    · exact ⟨_, exec_push_of_room hcap hfull hw d, rfl⟩
  | advrd n =>
    have hdrn : s.drnState = .idle := s.drnBusy_eq_false.1 h
    obtain hover | hseen := Nat.lt_or_ge s.pendingC n.toNat
    · exact ⟨_, exec_advrd_of_lt hdrn hover, rfl⟩
    · exact ⟨_, exec_advrd_of_le hdrn hseen, rfl⟩
  | capture => exact ⟨_, exec_capture_of_idle (s.capBusy_eq_false.1 h), rfl⟩
  | fence => exact ⟨_, exec_fence_of_quiescent (by simpa [State.held] using h), rfl⟩
  | getbaud =>
    cases hset : s.lineSet with
    | true => exact ⟨_, exec_getbaud_of_set hset, rfl⟩
    | false => exact ⟨_, exec_getbaud_of_unset hset, rfl⟩
  | rdreg regno =>
    cases hreg : regOfNumber regno with
    | some reg => exact ⟨_, exec_rdreg_of_some s hreg, rfl⟩
    | none => exact ⟨_, exec_rdreg_of_none s hreg, rfl⟩
  | avail | isfull | drainTick | drainDone | setline => exact ⟨_, rfl, rfl⟩

/-- A quiescent block holds no operation: each hold waits for a part of quiescence (R220, R227). -/
theorem State.not_held_of_quiescent (hq : s.quiescent = true) (i : Instr) : s.held i = false := by
  obtain ⟨hcap, hdrn, -⟩ := s.quiescent_iff.1 hq
  refine Bool.eq_false_iff.2 fun hheld => ?_
  simpa [hcap, hdrn, hq] using (s.held_iff i).1 hheld

/-! ## The choice of the next step -/

theorem State.choice_of_sched {e : AgentStep} {rest : List AgentStep} (h : s.sched = e :: rest) :
    s.nextStep = e ∧ s.popStep = { s with sched := rest } := by
  simp only [State.nextStep, State.popStep, h, and_self]

theorem State.choice_of_no_sched (h : s.sched = []) :
    s.nextStep = Config.drawStep s.draws ∧ s.popStep = { s with draws := s.draws + 1 } := by
  simp only [State.nextStep, State.popStep, h, and_self]

/-! ## The end of a program run -/

/-- Quiescence is that no agent of the run but the control port has a step (R227). -/
theorem State.quiescent_iff_no_step (s : State) : s.quiescent = true ↔
    ∀ e, AgentStep.inProgramRun e = true → e ≠ .issue → s.enabled e = false := by
  rw [s.quiescent_iff]
  constructor
  · rintro ⟨hcap, hdrn, hrc, hrd, hrt, hws, hrs⟩ e hrun hne
    cases e with
    | issue => exact absurd rfl hne
    | intake | flush => simp [State.enabled, hcap]
    | grant => simp [State.enabled, State.grantEnabled, hrc, hrd, hrt]
    | writeSync => simp [State.enabled, hws]
    | readSync => simp [State.enabled, hrs]
    | answer k => simp [State.enabled, hdrn]
    | rxArrive | rxIdle | irqStart | reset => cases hrun
  · intro h
    have hloop := beq_eq_false_iff_ne.1 (h .intake rfl nofun)
    have hflush := beq_eq_false_iff_ne.1 (h .flush rfl nofun)
    have hdrn := s.drnBusy_eq_false.1 (h (.answer 0) rfl nofun)
    have hgrant := mt s.grantEnabled_iff.2 (Bool.eq_false_iff.1 (h .grant rfl nofun))
    have hws : s.wSync = s.w := bne_eq_false_iff_eq.1 (h .writeSync rfl nofun)
    have hrs : s.rSync = s.r := bne_eq_false_iff_eq.1 (h .readSync rfl nofun)
    have hcap : s.capState = .idle := by
      cases hc : s.capState with
      | idle => rfl
      | loop => exact absurd hc hloop
      | flush => exact absurd hc hflush
    simp only [hdrn, true_and, not_or, Bool.not_eq_true] at hgrant
    obtain ⟨hrc, hrd, hrt⟩ := hgrant
    exact ⟨hcap, hdrn, hrc, hrd, hrt, hws, hrs⟩

/-- In a quiescent block the control port is without a step at the end of the program alone (R220). -/
theorem State.issue_enabled_eq_false_iff (hq : s.quiescent = true) :
    s.enabled .issue = false ↔ s.ops.length ≤ s.opPos := by
  have hheld : ∀ word, s.wordHeld word = false := fun word => by
    unfold State.wordHeld
    split
    · exact State.not_held_of_quiescent hq _
    · rfl
  rw [← List.getElem?_eq_none_iff]
  change s.issueEnabled = false ↔ s.fetchWord = none
  cases hfetch : s.fetchWord with
  | none => simp [State.issueEnabled, hfetch]
  | some word => simp [State.issueEnabled, hfetch, hheld]

/-- The two descriptions of the end of a run (R222). -/
theorem State.ended_iff_no_step (hport : s.PortInside) :
    s.ended ↔ ∀ e, AgentStep.inProgramRun e = true → s.enabled e = false := by
  constructor
  · rintro ⟨hpos, hq⟩ e hrun
    by_cases he : e = .issue
    · exact he ▸ (State.issue_enabled_eq_false_iff hq).2 hpos.ge
    · exact s.quiescent_iff_no_step.1 hq e hrun he
  · intro h
    have hq : s.quiescent = true := s.quiescent_iff_no_step.2 fun e hrun _ => h e hrun
    exact ⟨hport.antisymm ((State.issue_enabled_eq_false_iff hq).1 (h .issue rfl)), hq⟩

end Sys2Proof.Machine

open Sys2Proof Sys2Proof.Machine

/-- Settles O50: where no other agent has a step the block is quiescent, and a quiescent block holds no word, so the
control port stops at the end of the program alone. -/
theorem runsEndWhereNoAgentHasAStep : Obligations.RunsEndWhereNoAgentHasAStep := by
  intro s hport _
  have hended := State.ended_iff_no_step hport
  exact ⟨hended, by rw [State.final, hended, State.failed, Bool.not_eq_true, and_comm]⟩

/-- Settles O8: the choice, once consumed, leaves the program and the port's position alone. -/
theorem stepRunsDecodedInstruction : Obligations.StepRunsDecodedInstruction := by
  refine ⟨fun s word i hlegal hissue hfetch hdecode => ?_, fun s e rest => State.choice_of_sched,
    fun s => State.choice_of_no_sched⟩
  have hpopped : s.popStep.fetchWord = some word := by
    rw [State.fetchWord, s.popStep_ops, s.popStep_opPos, hfetch]
  rw [step_of_legal s hlegal, hissue, runStep_issue_of_decode hpopped hdecode]

/-- Settles O21, by whether the block is quiescent. -/
theorem fenceWaitsForQuiescence : Obligations.FenceWaitsForQuiescence :=
  ⟨decodeOfEncode .fence rfl, fun s => ⟨fun hq => exec_fence_of_quiescent (s.quiescent_iff.2 hq),
    fun hq => exec_fence_of_not_quiescent (Bool.eq_false_iff.2 (mt s.quiescent_iff.1 hq))⟩⟩

/-- Settles O25, operation by operation through what each answers in its cases. -/
theorem heldWordsWaitOthersAdvance : Obligations.HeldWordsWaitOthersAdvance :=
  fun i s => ⟨s.held_iff i, exec_of_held, exec_opPos_of_not_held⟩
end

section
/-! SUPPORT. The fault record (`60_exceptions.md`): which operation raises which cause, what every agent's step does to
the record, the interrupt wiring's start, and what the record leaves free. -/

namespace Sys2Proof.Machine

variable {s t : State} {e : AgentStep}

/-! ## The record -/

/-- `t` holds the fault record of `s`. -/
def SameFaultRecord (s t : State) : Prop := t.fault = s.fault ∧ t.faultCause = s.faultCause

theorem SameFaultRecord.not_fault (h : SameFaultRecord s t) (hs : s.fault = false) : ¬ t.fault = true :=
  ne_true_of_eq_false (h.1.trans hs)

/-- The first fault's code is the cause's own (R241). -/
theorem State.raiseFault_first (hs : s.faultCause = 0) (c : FaultCause) : (s.raiseFault c).faultCause = c.code :=
  if_pos hs

/-- A later fault leaves the first one's code (R241, R244). -/
theorem State.raiseFault_later (hs : s.faultCause ≠ 0) (c : FaultCause) : (s.raiseFault c).faultCause = s.faultCause :=
  if_neg hs

/-! ## The operations -/

/-- The causes an operation raises, each with its guard (R242). A number that names no register, which no word decodes
to, acts as an illegal word (log entry 13). -/
inductive OperationRaises (s : State) : Instr → FaultCause → Prop where
  | pushFull (d : Byte) : (s.w + 1) % s.cap = s.rSync → OperationRaises s (.push d) .pushFull
  | advanceOverrun (n : BitVec 16) : s.pendingC < n.toNat → OperationRaises s (.advrd n) .advanceOverrun
  | lineUnset : s.lineSet = false → OperationRaises s .getbaud .lineUnset
  | noRegister (regno : BitVec 4) : 7 ≤ regno.toNat → OperationRaises s (.rdreg regno) .illegalOp

/-- PUSH where `w` names no cell stops the model (R60). -/
theorem exec_push_of_outside (hcap : s.capState = .idle) (hfull : (s.w + 1) % s.cap ≠ s.rSync) (hw : ¬ s.w < s.cap)
    (d : Byte) : exec (.push d) s = .fault .outsideStorage := by
  simp only [exec, execPush, State.held, s.capBusy_eq_false.2 hcap, s.fullP_eq_false.2 hfull,
    s.pushByte_of_not_lt d hw, Except.map, finish, Bool.false_eq_true, if_false]

/-- An operation leaves the record alone, or raises a cause of its own and does nothing else (R242, R243). -/
theorem exec_keeps_or_raises {i : Instr} (h : exec i s = .next t) :
    SameFaultRecord s t ∨ ∃ c, OperationRaises s i c ∧ t = (s.raiseFault c).issued := by
  by_cases hheld : s.held i = true
  · cases (exec_of_held hheld).symm.trans h
    exact .inl ⟨rfl, rfl⟩
  rw [Bool.not_eq_true] at hheld
  cases i with
  | push d =>
    have hcap : s.capState = .idle := s.capBusy_eq_false.1 hheld
    by_cases hfull : (s.w + 1) % s.cap = s.rSync
    · cases (exec_push_of_full hcap hfull d).symm.trans h
      exact .inr ⟨_, .pushFull d hfull, rfl⟩
    · by_cases hw : s.w < s.cap
      · cases (exec_push_of_room hcap hfull hw d).symm.trans h
        exact .inl ⟨rfl, rfl⟩
      · cases (exec_push_of_outside hcap hfull hw d).symm.trans h
  | advrd n =>
    have hdrn : s.drnState = .idle := s.drnBusy_eq_false.1 hheld
    obtain hover | hseen := Nat.lt_or_ge s.pendingC n.toNat
    · cases (exec_advrd_of_lt hdrn hover).symm.trans h
      exact .inr ⟨_, .advanceOverrun n hover, rfl⟩
    · cases (exec_advrd_of_le hdrn hseen).symm.trans h
      exact .inl ⟨rfl, rfl⟩
  | capture =>
    cases (exec_capture_of_idle (s.capBusy_eq_false.1 hheld)).symm.trans h
    exact .inl ⟨rfl, rfl⟩
  | fence =>
    cases (exec_fence_of_quiescent (by simpa [State.held] using hheld)).symm.trans h
    exact .inl ⟨rfl, rfl⟩
  | getbaud =>
    cases hset : s.lineSet with
    | true =>
      cases (exec_getbaud_of_set hset).symm.trans h
      exact .inl ⟨rfl, rfl⟩
    | false =>
      cases (exec_getbaud_of_unset hset).symm.trans h
      exact .inr ⟨_, .lineUnset hset, rfl⟩
  | rdreg regno =>
    cases hreg : regOfNumber regno with
    | some reg =>
      cases (exec_rdreg_of_some s hreg).symm.trans h
      exact .inl ⟨rfl, rfl⟩
    | none =>
      cases (exec_rdreg_of_none s hreg).symm.trans h
      exact .inr ⟨_, .noRegister regno ((regOfNumber_eq_none regno).1 hreg), rfl⟩
  | avail | isfull | drainTick | drainDone | setline => cases h; exact .inl ⟨rfl, rfl⟩

/-- So an operation after which a clear record is set has raised its cause. -/
theorem exec_raises {i : Instr} (h : exec i s = .next t) (hs : s.fault = false) (ht : t.fault = true) :
    ∃ c, OperationRaises s i c ∧ t = (s.raiseFault c).issued :=
  (exec_keeps_or_raises h).resolve_left fun hsame => hsame.not_fault hs ht

/-! ## The issue -/

/-- The causes the issue of a word raises: ILLEGAL_OP for an illegal word, or its operation's (R242, R245). -/
def WordRaises (s : State) (word : Word) (c : FaultCause) : Prop :=
  (∀ i, decode word ≠ .ok i) ∧ c = .illegalOp ∨ ∃ i, decode word = .ok i ∧ OperationRaises s i c

theorem runStep_issue_raises (h : runStep .issue s = .next t) (hs : s.fault = false) (ht : t.fault = true) :
    ∃ word c, s.fetchWord = some word ∧ WordRaises s word c ∧ t = (s.raiseFault c).issued := by
  cases hfetch : s.fetchWord with
  | none =>
    simp only [runStep, issueStep, hfetch] at h
    cases h
    exact absurd ht (ne_true_of_eq_false hs)
  | some word =>
    by_cases hlegal : ∃ i, decode word = .ok i
    · obtain ⟨i, hdecode⟩ := hlegal
      rw [runStep_issue_of_decode hfetch hdecode] at h
      obtain ⟨c, hc, rfl⟩ := exec_raises h hs ht
      exact ⟨word, c, rfl, .inr ⟨i, hdecode, hc⟩, rfl⟩
    · rw [not_exists] at hlegal
      cases (runStep_issue_of_not_decodes hfetch hlegal).symm.trans h
      exact ⟨word, _, rfl, .inl ⟨hlegal, rfl⟩, rfl⟩

/-- Which word raises which code: the number of a decoded RDREG names a register, so only an illegal word has code 1
(R242). -/
theorem WordRaises.cases {word : Word} {c : FaultCause} (h : WordRaises s word c) :
    (∀ i, decode word ≠ .ok i) ∧ c.code = 1
      ∨ (∃ d, decode word = .ok (.push d)) ∧ (s.w + 1) % s.cap = s.rSync ∧ c.code = 2
      ∨ (∃ n, decode word = .ok (.advrd n) ∧ s.pendingC < n.toNat) ∧ c.code = 3
      ∨ decode word = .ok .getbaud ∧ s.lineSet = false ∧ c.code = 5 := by
  obtain ⟨hillegal, rfl⟩ | ⟨i, hdecode, hraises⟩ := h
  · exact .inl ⟨hillegal, rfl⟩
  · cases hraises with
    | pushFull d hfull => exact .inr (.inl ⟨⟨d, hdecode⟩, hfull, rfl⟩)
    | advanceOverrun n hover => exact .inr (.inr (.inl ⟨⟨n, hdecode, hover⟩, rfl⟩))
    | lineUnset hset => exact .inr (.inr (.inr ⟨hdecode, hset, rfl⟩))
    | noRegister regno habove =>
      have hwithin : regno.toNat ≤ 6 := of_decide_eq_true ((Laws.decode_eq_ok_iff word _).1 hdecode).1
      omega

/-! ## Every agent's step -/

/-- A step other than reset leaves the record alone, is an issue that raises a fault, or is an answer above the offer
(R242, R244). -/
theorem Change.keeps_or_raises (h : Change s e t) (he : e ≠ .reset) : SameFaultRecord s t
    ∨ (e = .issue ∧ ∃ c, t = (s.raiseFault c).issued)
    ∨ ∃ k : Word, e = .answer k ∧ s.drnState = .offer ∧ s.offerLen < k.toNat
        ∧ t = { s.raiseFault .transportOveraccept with drnState := .idle } := by
  cases h with
  | faultWord c => exact .inr (.inl ⟨rfl, c, rfl⟩)
  | answerOver k hdrn hover => exact .inr (.inr ⟨k, rfl, hdrn, hover, rfl⟩)
  | grantEmpty | grantOffer => exact .inl ⟨s.clearGranted_fault, s.clearGranted_faultCause⟩
  | reset => exact absurd rfl he
  | _ => exact .inl ⟨rfl, rfl⟩

/-- Only reset clears the record, and the first cause stays in it (R244, R249). -/
theorem Change.faultRecord_sticky (h : Change s e t) (he : e ≠ .reset) (hs : s.fault = true) :
    t.fault = true ∧ (s.faultCause ≠ 0 → t.faultCause = s.faultCause) := by
  obtain ⟨hfault, hcause⟩ | ⟨-, c, rfl⟩ | ⟨k, -, -, -, rfl⟩ := h.keeps_or_raises he
  · exact ⟨hfault.trans hs, fun _ => hcause⟩
  · exact ⟨rfl, fun hne => State.raiseFault_later hne c⟩
  · exact ⟨rfl, fun hne => State.raiseFault_later hne .transportOveraccept⟩

/-! ## Sequences of steps -/

/-- What a sequence that starts with `e` reaches, it reaches from the next state of `e`. -/
theorem exists_of_takeSteps_cons {rest : List AgentStep} (h : takeSteps (e :: rest) s = some t) :
    ∃ u, runStep e s = .next u ∧ takeSteps rest u = some t := by
  unfold takeSteps at h
  split at h
  · split at h
    · exact ⟨_, ‹_›, h⟩
    · cases h
    · cases h
  · cases h

/-- Without a reset a run stays faulted (R244). -/
theorem takeSteps_fault {es : List AgentStep} (hreset : AgentStep.reset ∉ es) (h : takeSteps es s = some t)
    (hs : s.fault = true) : t.fault = true := by
  induction es generalizing s with
  | nil => cases h; exact hs
  | cons e rest ih =>
    obtain ⟨u, hstep, h⟩ := exists_of_takeSteps_cons h
    obtain ⟨hu, -⟩ := (runStep_change e s u hstep).faultRecord_sticky (List.ne_of_not_mem_cons hreset).symm hs
    exact ih (List.not_mem_of_not_mem_cons hreset) h hu

/-! ## The block operates on -/

/-- No condition of R220, R250 or any other agent's step reads the record. -/
theorem State.enabled_of_faultRecord (s : State) (e : AgentStep) (fault : Bool) (cause : BitVec 4) :
    State.enabled { s with fault := fault, faultCause := cause } e = s.enabled e := by
  cases e <;> rfl

/-! ## The interrupt wiring -/

theorem runStep_irqStart_of_enabled (h : s.enabled .irqStart = true) : runStep .irqStart s = .next s.episodeStart :=
  if_pos h

theorem runStep_irqStart_of_not_enabled (h : s.enabled .irqStart = false) : runStep .irqStart s = .next s :=
  if_neg (ne_true_of_eq_false h)

end Sys2Proof.Machine

open Sys2Proof Sys2Proof.Machine

/-- Settles O43: of the steps that touch the record, the issue raises its word's cause, and every other one is an answer
above the offer. -/
theorem faultsHaveOneRaiser : Obligations.FaultsHaveOneRaiser := by
  intro e s t hs hcause hstep ht
  by_cases he : e = .issue
  · subst he
    obtain ⟨word, c, hfetch, hraises, rfl⟩ := runStep_issue_raises hstep hs ht
    refine .inl ⟨rfl, rfl, word, hfetch, ?_⟩
    rw [State.issued_faultCause, State.raiseFault_first hcause c]
    exact hraises.cases
  · have hreset : e ≠ .reset := by
      rintro rfl
      cases hstep
      cases ht
    obtain hsame | ⟨hissue, -⟩ | ⟨k, hanswer, hdrn, hover, rfl⟩ :=
      (runStep_change e s t hstep).keeps_or_raises hreset
    · exact absurd ht (hsame.not_fault hs)
    · exact absurd hissue he
    · exact .inr ⟨k, hanswer, hdrn, hover, State.raiseFault_first hcause .transportOveraccept⟩

/-- Settles O44, by the list of every next state. -/
theorem faultRecordIsSticky : Obligations.FaultRecordIsSticky :=
  fun e s t he hstep => (runStep_change e s t hstep).faultRecord_sticky he

/-- Settles O45: the next state is the raised record and the advance of `op_pos`. -/
theorem faultingOperationsArePrecise : Obligations.FaultingOperationsArePrecise := by
  intro i s t h hs ht
  obtain ⟨c, -, rfl⟩ := exec_raises h hs ht
  rfl

/-- Settles O53, by induction on the steps. -/
theorem faultedStatesAreNeverFinal : Obligations.FaultedStatesAreNeverFinal := by
  refine ⟨fun es s t hreset h hs => ?_, fun s => ?_, State.enabled_of_faultRecord⟩
  · have ht : t.fault = true := takeSteps_fault hreset h hs
    exact ⟨ht, fun ⟨_, hrunning⟩ => hrunning ht⟩
  · rw [State.final, State.ended, State.failed, Bool.not_eq_true, and_assoc]

/-- Settles O36, by whether the wiring is enabled. -/
theorem wiringStartsEpisodes : Obligations.WiringStartsEpisodes :=
  fun s => ⟨s.wiringEnabled_iff, runStep_irqStart_of_enabled, runStep_irqStart_of_not_enabled⟩
end

section
/-! SUPPORT. The work left in a program run (`70_reset_and_hazards.md` R302): a number that every enabled step of the
run lowers, so that the run's enabled steps are bounded and its fair runs end. -/

namespace Sys2Proof.Machine

variable {s t : State} {e : AgentStep}

/-! ## The work left -/

/-- A synchroniser has one step while its copy differs from the index (R66, R67). -/
def lag (copy index : Nat) : Nat := if copy = index then 0 else 1

/-- The flush can post a request, which weighs 3; ending the loop is one step more. -/
def CapState.weight : CapState → Nat
  | .idle => 0
  | .flush => 4
  | .loop => 5

/-- The answer can move `r` away from its copy, so an offer outweighs a lag. -/
def DrnState.weight : DrnState → Nat
  | .idle => 0
  | .offer => 2

/-- The number of requests pending. -/
def State.requests (s : State) : Nat := s.reqCap.toNat + s.reqDone.toNat + s.reqTick.toNat

/-- The work left outside the control port. A request outweighs the offer a grant turns it into, and a queued byte the
lag that its push can cause. -/
def State.blockWork (s : State) : Nat :=
  s.capState.weight + 2 * s.rxQueue.length + 3 * s.requests + s.drnState.weight + lag s.wSync s.w + lag s.rSync s.r

/-- The work left in the run. A word outweighs what it can add to the block's work, at most a whole episode. -/
def State.workLeft (s : State) : Nat := 6 * (s.ops.length - s.opPos) + s.blockWork

@[simp] theorem lag_self (a : Nat) : lag a a = 0 := if_pos rfl

theorem lag_of_ne {a b : Nat} (h : a ≠ b) : lag a b = 1 := if_neg h

theorem lag_le_one (a b : Nat) : lag a b ≤ 1 := by
  unfold lag
  split <;> decide

/-- A grant consumes one request (R139). -/
theorem State.requests_clearGranted (h : s.reqCap = true ∨ s.reqDone = true ∨ s.reqTick = true) :
    s.clearGranted.requests + 1 = s.requests := by
  unfold State.requests
  rw [s.clearGranted_reqCap, s.clearGranted_reqDone, s.clearGranted_reqTick]
  revert h
  generalize s.reqCap = cap
  generalize s.reqDone = done
  generalize s.reqTick = tick
  revert cap done tick
  decide

/-! ## What each shared operation does to the block's work -/

theorem State.blockWork_pushed_le (s : State) (b : Byte) : (s.pushed b).blockWork ≤ s.blockWork + 1 := by
  have hlag := lag_le_one s.wSync ((s.w + 1) % s.cap)
  simp only [State.blockWork, State.requests, State.pushed]
  omega

theorem State.blockWork_advanceRead_le (s : State) (n : Nat) : (s.advanceRead n).blockWork ≤ s.blockWork + 1 := by
  have hlag := lag_le_one s.rSync ((s.r + n) % s.cap)
  simp only [State.blockWork, State.requests, State.advanceRead]
  omega

theorem State.blockWork_episodeStart (hcap : s.capState = .idle) : s.episodeStart.blockWork = s.blockWork + 5 := by
  simp only [State.blockWork, State.requests, hcap, CapState.weight, State.episodeStart, State.clearIdleFlag]
  omega

theorem State.blockWork_drnIdle (hdrn : s.drnState = .offer) :
    { s with drnState := .idle }.blockWork + 2 = s.blockWork := by
  simp only [State.blockWork, State.requests, hdrn, DrnState.weight]
  omega

theorem State.blockWork_clearGranted (h : s.reqCap = true ∨ s.reqDone = true ∨ s.reqTick = true) :
    s.clearGranted.blockWork + 3 = s.blockWork := by
  have hless := State.requests_clearGranted h
  simp only [State.blockWork, s.clearGranted_capState, s.clearGranted_rxQueue, s.clearGranted_drnState,
    s.clearGranted_wSync, s.clearGranted_w, s.clearGranted_rSync, s.clearGranted_r]
  omega

theorem State.blockWork_makeOffer (hdrn : s.drnState = .idle) (off len : Nat) (bytes : List Byte) :
    (s.makeOffer off len bytes).blockWork = s.blockWork + 2 := by
  simp only [State.blockWork, State.requests, State.makeOffer, hdrn, DrnState.weight]
  omega

/-! ## The control port's step -/

/-- R220. -/
theorem State.issue_enabled_iff : s.enabled .issue = true ↔
    ∃ word, s.fetchWord = some word ∧ s.wordHeld word = false := by
  change s.issueEnabled = true ↔ _
  cases hfetch : s.fetchWord <;> simp [State.issueEnabled, hfetch]

/-- An enabled issue advances `op_pos` by one, whether the word is legal or not (R221, R245). -/
theorem runStep_issue_of_enabled (hw : s.w < s.cap) (hen : s.enabled .issue = true) :
    ∃ t, runStep .issue s = .next t ∧ t.opPos = s.opPos + 1 := by
  obtain ⟨word, hfetch, hheld⟩ := State.issue_enabled_iff.1 hen
  by_cases hlegal : ∃ i, decode word = .ok i
  · obtain ⟨i, hdecode⟩ := hlegal
    simp only [State.wordHeld, hdecode] at hheld
    rw [runStep_issue_of_decode hfetch hdecode]
    exact exec_opPos_of_not_held hheld hw
  · exact ⟨_, runStep_issue_of_not_decodes hfetch (not_exists.1 hlegal), rfl⟩

/-- A held word and a program at its end leave the port without a step (R220, log entry 5). -/
theorem runStep_issue_of_not_enabled (h : s.enabled .issue = false) : runStep .issue s = .next s := by
  cases hfetch : s.fetchWord with
  | none => simp only [runStep, issueStep, hfetch]
  | some word =>
    have hheld : s.wordHeld word = true := by
      by_contra hfree
      exact absurd (State.issue_enabled_iff.2 ⟨word, hfetch, Bool.eq_false_iff.2 hfree⟩) (ne_true_of_eq_false h)
    unfold State.wordHeld at hheld
    split at hheld
    · rw [runStep_issue_of_decode hfetch ‹_›]
      exact exec_of_held hheld
    · cases hheld

/-- One word adds at most an episode's work to the block's. -/
theorem Change.blockWork_le_of_issue (h : Change s .issue t) : t.blockWork ≤ s.blockWork + 5 := by
  cases h with
  | push word d => exact (s.blockWork_pushed_le d).trans (by omega)
  | advance word n => exact (s.blockWork_advanceRead_le n.toNat).trans (by omega)
  | capture hcap => exact (State.blockWork_episodeStart hcap).le
  | tick | done =>
    simp only [State.blockWork, State.requests, State.issued, Bool.toNat_true]
    omega
  | _ => exact Nat.le_add_right _ _

/-! ## The other agents' steps -/

/-- An enabled intake takes a byte, or ends the loop. -/
theorem runStep_intake_blockWork_lt (hw : s.w < s.cap) (hen : s.enabled .intake = true) :
    ∃ t, runStep .intake s = .next t ∧ t.blockWork < s.blockWork := by
  have hloop : s.capState = .loop := beq_iff_eq.1 hen
  cases hqueue : s.rxQueue with
  | nil =>
    refine ⟨_, runStep_intake_of_empty hloop hqueue, ?_⟩
    simp only [State.blockWork, State.requests, hloop, CapState.weight]
    omega
  | cons b rest =>
    by_cases hfull : (s.w + 1) % s.cap = s.rSync
    · refine ⟨_, runStep_intake_of_full hloop hqueue hfull, ?_⟩
      simp only [State.blockWork, State.requests, hloop, hqueue, CapState.weight, List.length_cons]
      omega
    · refine ⟨_, runStep_intake_of_room hloop hqueue hfull hw, ?_⟩
      have hpushed := s.blockWork_pushed_le b
      have hpopped : { s.pushed b with rxQueue := rest }.blockWork + 2 = (s.pushed b).blockWork := by
        simp only [State.blockWork, State.requests, State.pushed, hqueue, List.length_cons]
        omega
      omega

/-- An enabled flush ends the episode, with at most one more request. -/
theorem runStep_flush_blockWork_lt (hen : s.enabled .flush = true) :
    ∃ t, runStep .flush s = .next t ∧ t.blockWork < s.blockWork := by
  have hflush : s.capState = .flush := beq_iff_eq.1 hen
  cases hneed : s.flushNeeded with
  | true =>
    refine ⟨_, runStep_flush_of_needed hflush hneed, ?_⟩
    simp only [State.blockWork, State.requests, hflush, CapState.weight, lag_self, Bool.toNat_true]
    omega
  | false =>
    refine ⟨_, runStep_flush_of_not_needed hflush hneed, ?_⟩
    simp only [State.blockWork, State.requests, hflush, CapState.weight]
    omega

/-- An enabled grant turns one request into at most one offer. -/
theorem State.Inv.runStep_grant_blockWork_lt (hs : s.Inv) (hen : s.enabled .grant = true) :
    ∃ t, runStep .grant s = .next t ∧ t.blockWork < s.blockWork := by
  obtain ⟨hdrn, hreq⟩ := s.grantEnabled_iff.1 hen
  have hcleared := State.blockWork_clearGranted hreq
  by_cases hempty : s.wSync = s.r
  · exact ⟨_, runStep_grant_of_empty hen hempty, by omega⟩
  · obtain ⟨bytes, -, hgrant⟩ := hs.runStep_grant hen hempty
    have hoffer : (s.granted bytes).blockWork = s.clearGranted.blockWork + 2 :=
      State.blockWork_makeOffer (s.clearGranted_drnState.trans hdrn) _ _ _
    exact ⟨_, hgrant, by omega⟩

/-- An enabled answer ends the transaction and may move `r`. -/
theorem State.Inv.runStep_answer_blockWork_lt (hs : s.Inv) {k : Word} (hen : s.enabled (.answer k) = true) :
    ∃ t, runStep (.answer k) s = .next t ∧ t.blockWork < s.blockWork := by
  have hdrn : s.drnState = .offer := s.drnBusy_iff.1 hen
  obtain hover | hle := Nat.lt_or_ge s.offerLen k.toNat
  · have hless := State.blockWork_drnIdle (s := s.raiseFault .transportOveraccept) hdrn
    exact ⟨_, runStep_answer_of_gt hdrn hover, (Nat.lt_add_of_pos_right two_pos).trans_eq hless⟩
  · obtain ⟨bytes, hread⟩ := hs.readRun_offer hdrn hle
    have hless : (s.deliver bytes).blockWork + 2 = s.blockWork := State.blockWork_drnIdle hdrn
    have hadvanced := (s.deliver bytes).blockWork_advanceRead_le s.offerLen
    refine ⟨_, runStep_answer_of_le hdrn hle hread, ?_⟩
    split <;> omega

/-- Every enabled step of the run but the issue lowers the block's work. -/
theorem State.Inv.blockWork_lt (hs : s.Inv) (hrun : AgentStep.inProgramRun e = true) (hne : e ≠ .issue)
    (hen : s.enabled e = true) : ∃ t, runStep e s = .next t ∧ t.blockWork < s.blockWork := by
  have ⟨_, ⟨hw, _⟩, _⟩ := hs
  cases e with
  | issue => exact absurd rfl hne
  | intake => exact runStep_intake_blockWork_lt hw hen
  | flush => exact runStep_flush_blockWork_lt hen
  | grant => exact hs.runStep_grant_blockWork_lt hen
  | answer k => exact hs.runStep_answer_blockWork_lt hen
  | writeSync | readSync =>
    have hlag := lag_of_ne (bne_iff_ne.1 hen)
    refine ⟨_, rfl, ?_⟩
    simp only [State.blockWork, State.requests, lag_self, hlag]
    omega
  | rxArrive | rxIdle | irqStart | reset => cases hrun

/-! ## Every step of the run -/

/-- Every enabled step of a program run lowers the work left (R302). -/
theorem State.Inv.workLeft_lt (hs : s.Inv) (hrun : AgentStep.inProgramRun e = true) (hen : s.enabled e = true)
    (h : runStep e s = .next t) : t.workLeft < s.workLeft := by
  have ⟨_, ⟨hw, _⟩, _⟩ := hs
  have hchange : Change s e t := runStep_change e s t h
  obtain ⟨hops, hpos⟩ := hchange.port
  unfold State.workLeft
  rw [hops]
  by_cases he : e = .issue
  · subst he
    have hadded := hchange.blockWork_le_of_issue
    obtain ⟨t', h', hnext⟩ := runStep_issue_of_enabled hw hen
    cases h'.symm.trans h
    have hinside : s.opPos < s.ops.length := (issue_inside s t h).resolve_left fun hsame => by
      rw [hsame] at hnext
      omega
    omega
  · obtain ⟨t', h', hless⟩ := hs.blockWork_lt hrun he hen
    cases h'.symm.trans h
    rw [hpos.resolve_right fun hissue => he hissue.1]
    omega

/-- A step of a program run that is not enabled changes nothing (log entry 5). -/
theorem runStep_of_not_enabled (hrun : AgentStep.inProgramRun e = true) (hen : s.enabled e = false) :
    runStep e s = .next s := by
  cases e with
  | issue => exact runStep_issue_of_not_enabled hen
  | intake => exact runStep_intake_of_ne_loop (beq_eq_false_iff_ne.1 hen)
  | flush => exact runStep_flush_of_ne_flush (beq_eq_false_iff_ne.1 hen)
  | grant => exact runStep_grant_of_not_enabled hen
  | answer k => exact runStep_answer_of_idle (s.drnBusy_eq_false.1 hen) k
  | writeSync =>
    have hsame : s.wSync = s.w := bne_eq_false_iff_eq.1 hen
    exact congrArg (fun i => Host.Outcome.next { s with wSync := i }) hsame.symm
  | readSync =>
    have hsame : s.rSync = s.r := bne_eq_false_iff_eq.1 hen
    exact congrArg (fun i => Host.Outcome.next { s with rSync := i }) hsame.symm
  | rxArrive | rxIdle | irqStart | reset => cases hrun

/-- Where a run has not ended, some agent of it has a step (R222). -/
theorem State.Inv.exists_enabled_of_not_ended (hs : s.Inv) (hend : ¬ s.ended) :
    ∃ e, AgentStep.inProgramRun e = true ∧ s.enabled e = true := by
  obtain ⟨-, -, -, -, hport⟩ := State.inv_iff.1 hs
  rw [State.ended_iff_no_step hport] at hend
  simpa using hend

/-! ## Finite sequences -/

theorem takeSteps_cons_iff {rest : List AgentStep} : takeSteps (e :: rest) s = some t ↔
    s.enabled e = true ∧ ∃ u, runStep e s = .next u ∧ takeSteps rest u = some t := by
  rw [takeSteps]
  split
  · split <;> simp_all
  · simp_all

/-- The enabled steps of a program run take no more steps than there was work. -/
theorem State.Inv.length_le_workLeft {es : List AgentStep} (hs : s.Inv)
    (hrun : ∀ e, e ∈ es → AgentStep.inProgramRun e = true) (h : takeSteps es s = some t) :
    es.length ≤ s.workLeft := by
  induction es generalizing s with
  | nil => exact Nat.zero_le _
  | cons e rest ih =>
    rw [List.forall_mem_cons] at hrun
    obtain ⟨hen, u, hstep, hrest⟩ := takeSteps_cons_iff.1 h
    exact (ih (hs.next hstep) hrun.2 hrest).trans_lt (hs.workLeft_lt hrun.1 hen hstep)

/-- As long as the run has not ended it can go on, and each step leaves less work. -/
theorem State.Inv.exists_takeSteps_ended (hs : s.Inv) : ∃ es t,
    (∀ e, e ∈ es → AgentStep.inProgramRun e = true) ∧ takeSteps es s = some t ∧ t.ended := by
  induction hwork : s.workLeft using Nat.strong_induction_on generalizing s with
  | h work ih =>
    subst hwork
    by_cases hend : s.ended
    · exact ⟨[], s, nofun, rfl, hend⟩
    · obtain ⟨e, hrun, hen⟩ := hs.exists_enabled_of_not_ended hend
      obtain ⟨u, hstep⟩ := hs.runStep_exists_next e
      obtain ⟨es, t, hes, htake, ht⟩ := ih _ (hs.workLeft_lt hrun hen hstep) (hs.next hstep) rfl
      exact ⟨e :: es, t, List.forall_mem_cons.2 ⟨hrun, hes⟩, takeSteps_cons_iff.2 ⟨hen, u, hstep, htake⟩, ht⟩

/-! ## Infinite runs -/

/-- An infinite run with a silent receiver, from a state that keeps the invariant (R222). -/
structure ProgramRun (states : Nat → State) (who : Nat → AgentStep) : Prop where
  inv_zero : (states 0).Inv
  isRun : IsRun states who
  inProgramRun : ∀ n, AgentStep.inProgramRun (who n) = true

namespace ProgramRun

variable {states : Nat → State} {who : Nat → AgentStep} {n m : Nat}

theorem inv (h : ProgramRun states who) (n : Nat) : (states n).Inv := by
  induction n with
  | zero => exact h.inv_zero
  | succ n ih => exact ih.next (h.isRun n)

/-- A position whose step is not enabled repeats its state. -/
theorem succ_eq_of_not_enabled (h : ProgramRun states who) (hen : (states n).enabled (who n) = false) :
    states (n + 1) = states n :=
  Host.Outcome.next.inj ((h.isRun n).symm.trans (runStep_of_not_enabled (h.inProgramRun n) hen))

theorem workLeft_antitone (h : ProgramRun states who) : Antitone fun n => (states n).workLeft := by
  refine antitone_nat_of_succ_le fun n => ?_
  cases hen : (states n).enabled (who n) with
  | true => exact ((h.inv n).workLeft_lt (h.inProgramRun n) hen (h.isRun n)).le
  | false => rw [h.succ_eq_of_not_enabled hen]

/-- From some position on no step taken is enabled, and the state stays. -/
theorem exists_idle (h : ProgramRun states who) :
    ∃ n, ∀ m, n ≤ m → (states m).enabled (who m) = false ∧ states m = states n := by
  obtain ⟨n, hconst⟩ := WellFoundedLT.antitone_chain_condition h.workLeft_antitone
  have hidle (m : Nat) (hm : n ≤ m) : (states m).enabled (who m) = false := by
    refine Bool.eq_false_iff.2 fun hen => ?_
    have hless := (h.inv m).workLeft_lt (h.inProgramRun m) hen (h.isRun m)
    have hsame : (states m).workLeft = (states (m + 1)).workLeft :=
      (hconst m hm).symm.trans (hconst (m + 1) (Nat.le_succ_of_le hm))
    omega
  refine ⟨n, fun m hm => ⟨hidle m hm, ?_⟩⟩
  induction m, hm using Nat.le_induction with
  | base => rfl
  | succ m hm ih => exact (h.succ_eq_of_not_enabled (hidle m hm)).trans ih

/-- No step of a program run clears the fault record (R244). -/
theorem fault_mono (h : ProgramRun states who) (hnm : n ≤ m) (hfault : (states n).fault = true) :
    (states m).fault = true := by
  induction m, hnm using Nat.le_induction with
  | base => exact hfault
  | succ m _ ih =>
    have hreset : who m ≠ .reset := fun heq => by
      have hrun := h.inProgramRun m
      rw [heq] at hrun
      cases hrun
    exact ((runStep_change _ _ _ (h.isRun m)).faultRecord_sticky hreset ih).1

end ProgramRun

/-- What the environment draws does not decide whether the step is enabled. -/
theorem State.enabled_of_sameAs {e' : AgentStep} (h : AgentStep.sameAs e' e = true) : s.enabled e' = s.enabled e := by
  unfold AgentStep.sameAs at h
  split at h
  · rfl
  · rw [beq_iff_eq.1 h]

/-- The steps of a program run are among those of R301. -/
theorem AgentStep.fair_of_inProgramRun (h : AgentStep.inProgramRun e = true) : AgentStep.fair e = true := by
  cases e with
  | rxArrive | rxIdle | irqStart | reset => cases h
  | _ => rfl

/-- A weakly fair program run comes to rest at its end: an agent that still had a step there would keep it untaken. -/
theorem ProgramRun.exists_ended {states : Nat → State} {who : Nat → AgentStep} (h : ProgramRun states who)
    (hfair : WeaklyFair states who) : ∃ n, (states n).ended ∧ ∀ m, n ≤ m → states m = states n := by
  obtain ⟨n, hidle⟩ := h.exists_idle
  refine ⟨n, ?_, fun m hm => (hidle m hm).2⟩
  by_contra hend
  obtain ⟨e, hrun, hen⟩ := (h.inv n).exists_enabled_of_not_ended hend
  have hstays (m : Nat) (hm : n ≤ m) : (states m).enabled e = true := (hidle m hm).2 ▸ hen
  obtain ⟨m, hm, hsame⟩ := hfair e (AgentStep.fair_of_inProgramRun hrun) n hstays
  have htaken : (states m).enabled (who m) = true := (State.enabled_of_sameAs hsame).trans (hstays m hm)
  exact absurd htaken (ne_true_of_eq_false (hidle m hm).1)

end Sys2Proof.Machine

open Sys2Proof Sys2Proof.Machine

/-- Settles O51: the work left is the bound, and going on while some agent has a step reaches the end. -/
theorem programRunsAreBounded : Obligations.ProgramRunsAreBounded :=
  fun s hs _ => ⟨⟨s.workLeft, fun _ _ => hs.length_le_workLeft⟩, hs.exists_takeSteps_ended⟩

/-- Settles O52: the run rests at its end, which is faulted as soon as any position is. -/
theorem fairProgramRunsEnd : Obligations.FairProgramRunsEnd := by
  intro states who hinv _ hrun hsteps hfair
  have h : ProgramRun states who := ⟨hinv, hrun, hsteps⟩
  obtain ⟨n, hend, hrest⟩ := h.exists_ended hfair
  refine ⟨n, hend, fun ⟨_, hok⟩ m => Bool.eq_false_iff.2 fun hfault => hok ?_,
    fun hall => ⟨hend, ne_true_of_eq_false (hall n)⟩⟩
  rcases le_total m n with hm | hm
  · exact h.fault_mono hm hfault
  · exact hrest m hm ▸ hfault
end

section
/-! SUPPORT. The reset event (`70_reset_and_hazards.md` R280 to R283). -/

namespace Sys2Proof.Machine

/-- With `r` and `w` both 0 no byte is unread, whatever storage holds (R283). -/
theorem State.fifo_queue_of_zero {s : State} (hw : s.w = 0) (hr : s.r = 0) : s.fifo.queue = [] := by
  have hpending : s.pending = 0 := by
    rw [State.pending, hw, hr]
    exact ringDist_self _ _ (capacity_pos _)
  rw [State.fifo_eq, hpending]
  rfl

end Sys2Proof.Machine

open Sys2Proof Sys2Proof.Machine

/-- Settles O37: the next state is the launch state of the same configuration, with the run's records kept. -/
theorem resetRestoresTheTable : Obligations.ResetRestoresTheTable :=
  fun _ => ⟨_, rfl, rfl, fun _ => rfl, fun k => ⟨rfl, runStep_answer_of_idle rfl k⟩, State.fifo_queue_of_zero rfl rfl⟩
end

section
/-! SUPPORT. The reasons for which a word is ILLEGAL (`30_encoding.md` R88, R90), with the sample words of
`95_test_vectors.md` §2.1 as uses of them and of the encoding. -/

namespace Sys2Proof.Laws

/-- An unassigned major opcode is refused whatever the operand bits are (R90). -/
theorem decode_of_reservedOpcode {word : Word}
    (h : (word.extractLsb' 28 4).toNat = 0 ∨ 0xB ≤ (word.extractLsb' 28 4).toNat) :
    decode word = .error .reservedOpcode := by
  unfold decode
  split
  case h_11 => rfl
  all_goals omega

/-- A PUSH word with a bit set above its data is refused (R83). -/
theorem decode_push_of_reservedField {word : Word} (hopc : (word.extractLsb' 28 4).toNat = 0x3)
    (h : word.extractLsb' 8 20 ≠ 0) : decode word = .error .reservedField := by
  rw [decode, hopc]
  exact if_neg h

/-- An RDREG word of a reserved register is refused (R88). -/
theorem decode_rdreg_of_reservedRegister {word : Word} (hopc : (word.extractLsb' 28 4).toNat = 0xA)
    (hzero : word.extractLsb' 4 24 = 0) (h : ¬ (word.extractLsb' 0 4).toNat ≤ 6) :
    decode word = .error .reservedRegister := by
  rw [decode, hopc]
  exact (if_pos hzero).trans (if_neg h)

end Sys2Proof.Laws

open Sys2Proof Sys2Proof.Laws

/-- Settles O4: the six legal words are the encodings of their operations, and each of the others has its reason. -/
theorem sampleWordsDecode : Obligations.SampleWordsDecode := by
  refine ⟨decodeOfEncode (.push 0xFF) rfl, decodeOfEncode (.advrd 65535) rfl, decodeOfEncode .drainDone rfl,
    decodeOfEncode .capture rfl, decodeOfEncode (.setline 8 115200) rfl, decodeOfEncode (.rdreg 6) rfl, ?_, ?_, ?_⟩
  · exact decode_of_reservedOpcode (.inl rfl)
  · exact decode_push_of_reservedField rfl (by decide)
  · exact decode_rdreg_of_reservedRegister rfl rfl (by decide)
end
